-- ==== Sys2Proof/Word.lean ====
section
/-! DEFINITION. The widths of the machine's values (spec/00_scope.md R5, R9): every value is an unsigned integer of a stated width. -/

namespace Sys2Proof

/-- A 16-bit value: an instruction word, `I`, `pc`, a stack entry (`00_scope.md` R5). -/
abbrev Word := BitVec 16

/-- An 8-bit value: a general register, a timer, a byte of memory (`00_scope.md` R5). -/
abbrev Byte := BitVec 8

/-- A 4-bit operand field: `x`, `y`, `n` (`30_encoding.md` R72). -/
abbrev Nibble := BitVec 4

/-- The 12-bit address field `nnn` (`30_encoding.md` R72). -/
abbrev Addr := BitVec 12

end Sys2Proof
end

