-- ==== Sys2Proof/Syntax.lean ====
section
/-! DEFINITION. The 34 instruction forms of spec/30_encoding.md R80, in the table's order, one constructor each. A constructor carries every operand bit of its word, the ignored ones too (R76, R79), so an instruction determines the word it was read from, which a halting fault records (spec/10_state.md R34). -/

namespace Sys2Proof

/-- One instruction form with its operand fields (`30_encoding.md` R72, R80). `u` is the ignored low nibble of groups 5 and 9
(R79); the `y` of the two shifts is decoded and ignored (R76). -/
inductive Instr where
  | clearScreen
  | ret
  | jump (nnn : Addr)
  | call (nnn : Addr)
  | skipEqImm (x : Nibble) (kk : Byte)
  | skipNeImm (x : Nibble) (kk : Byte)
  | skipEqReg (x y u : Nibble)
  | skipNeReg (x y u : Nibble)
  | loadImm (x : Nibble) (kk : Byte)
  | addImm (x : Nibble) (kk : Byte)
  | loadReg (x y : Nibble)
  | or (x y : Nibble)
  | and (x y : Nibble)
  | xor (x y : Nibble)
  | addReg (x y : Nibble)
  | subReg (x y : Nibble)
  | shiftRight (x y : Nibble)
  | subnReg (x y : Nibble)
  | shiftLeft (x y : Nibble)
  | setIndex (nnn : Addr)
  | jumpOffset (nnn : Addr)
  | random (x : Nibble) (kk : Byte)
  | draw (x y n : Nibble)
  | skipKeyPressed (x : Nibble)
  | skipKeyNotPressed (x : Nibble)
  | loadDelay (x : Nibble)
  | waitKey (x : Nibble)
  | setDelay (x : Nibble)
  | setSound (x : Nibble)
  | addIndex (x : Nibble)
  | loadGlyphAddr (x : Nibble)
  | storeBcd (x : Nibble)
  | storeRegs (x : Nibble)
  | loadRegs (x : Nibble)
  deriving DecidableEq, Repr

end Sys2Proof
end

