-- ==== Sys2Proof/WellFormed.lean ====
section
/-! DEFINITION. The instructions the spec's assembler syntax can spell (spec/30_encoding.md R83): the ignored bits are written as 0. The widths of the fields are in their types. An instruction that is not well formed in this sense still decodes and still executes (R76, R79): no statement about decoding or execution is restricted to the well-formed ones. -/

namespace Sys2Proof

/-- `30_encoding.md` R83: the two shifts write their encoded `y` as 0, the two register skips their bits 3:0 as 0; every other
form has no ignored bit. -/
def Instr.wellFormed : Instr → Bool
  | .skipEqReg _ _ u => u == 0
  | .skipNeReg _ _ u => u == 0
  | .shiftRight _ y => y == 0
  | .shiftLeft _ y => y == 0
  | .clearScreen | .ret | .jump _ | .call _ | .skipEqImm _ _ | .skipNeImm _ _ | .loadImm _ _ | .addImm _ _
  | .loadReg _ _ | .or _ _ | .and _ _ | .xor _ _ | .addReg _ _ | .subReg _ _ | .subnReg _ _ | .setIndex _
  | .jumpOffset _ | .random _ _ | .draw _ _ _ | .skipKeyPressed _ | .skipKeyNotPressed _ | .loadDelay _ | .waitKey _
  | .setDelay _ | .setSound _ | .addIndex _ | .loadGlyphAddr _ | .storeBcd _ | .storeRegs _ | .loadRegs _ => true

end Sys2Proof
end

