-- ==== Sys2Proof/Decode.lean ====
section
/-! DEFINITION. The decoder and the encoder, both written from spec/30_encoding.md: fields R72, groups R74 to R79, opcode map R80, unrecognized words R81. -/

namespace Sys2Proof

/-! ## Fields of a word (R72) -/

/-- `w[15:12]`, the group. -/
def wordGroup (w : Word) : Nibble := w.extractLsb' 12 4

/-- `x = w[11:8]`. -/
def fieldX (w : Word) : Nibble := w.extractLsb' 8 4

/-- `y = w[7:4]`. -/
def fieldY (w : Word) : Nibble := w.extractLsb' 4 4

/-- `n = w[3:0]`, also the ignored nibble of groups 5 and 9 and the secondary key of group 8. -/
def fieldN (w : Word) : Nibble := w.extractLsb' 0 4

/-- `kk = w[7:0]`, also the secondary key of groups E and F. -/
def fieldKK (w : Word) : Byte := w.extractLsb' 0 8

/-- `nnn = w[11:0]`, also the secondary key of group 0. -/
def fieldNNN (w : Word) : Addr := w.extractLsb' 0 12

/-! ## Decoding (R74 to R79, `40_step_cycle.md` R103) -/

/-- Group 0 (R75): only the exact words 0x00E0 and 0x00EE. -/
def decodeGroup0 (key : Addr) : Option Instr :=
  if key = 0x0E0#12 then some .clearScreen
  else if key = 0x0EE#12 then some .ret
  else none

/-- Group 8 (R76): by the low nibble. -/
def decodeGroup8 (key x y : Nibble) : Option Instr :=
  match key.toNat with
  | 0x0 => some (.loadReg x y)
  | 0x1 => some (.or x y)
  | 0x2 => some (.and x y)
  | 0x3 => some (.xor x y)
  | 0x4 => some (.addReg x y)
  | 0x5 => some (.subReg x y)
  | 0x6 => some (.shiftRight x y)
  | 0x7 => some (.subnReg x y)
  | 0xE => some (.shiftLeft x y)
  | _ => none

/-- Group E (R77): by the low byte. -/
def decodeGroupE (key : Byte) (x : Nibble) : Option Instr :=
  if key = 0x9E#8 then some (.skipKeyPressed x)
  else if key = 0xA1#8 then some (.skipKeyNotPressed x)
  else none

/-- Group F (R78): by the low byte. -/
def decodeGroupF (key : Byte) (x : Nibble) : Option Instr :=
  if key = 0x07#8 then some (.loadDelay x)
  else if key = 0x0A#8 then some (.waitKey x)
  else if key = 0x15#8 then some (.setDelay x)
  else if key = 0x18#8 then some (.setSound x)
  else if key = 0x1E#8 then some (.addIndex x)
  else if key = 0x29#8 then some (.loadGlyphAddr x)
  else if key = 0x33#8 then some (.storeBcd x)
  else if key = 0x55#8 then some (.storeRegs x)
  else if key = 0x65#8 then some (.loadRegs x)
  else none

/-- Decode one word (R74, R80; `40_step_cycle.md` R103): total, a function of the word alone; `none` is `Unrecognized(w)` (R81). -/
def decode (w : Word) : Option Instr :=
  match (wordGroup w).toNat with
  | 0x0 => decodeGroup0 (fieldNNN w)
  | 0x1 => some (.jump (fieldNNN w))
  | 0x2 => some (.call (fieldNNN w))
  | 0x3 => some (.skipEqImm (fieldX w) (fieldKK w))
  | 0x4 => some (.skipNeImm (fieldX w) (fieldKK w))
  | 0x5 => some (.skipEqReg (fieldX w) (fieldY w) (fieldN w))
  | 0x6 => some (.loadImm (fieldX w) (fieldKK w))
  | 0x7 => some (.addImm (fieldX w) (fieldKK w))
  | 0x8 => decodeGroup8 (fieldN w) (fieldX w) (fieldY w)
  | 0x9 => some (.skipNeReg (fieldX w) (fieldY w) (fieldN w))
  | 0xA => some (.setIndex (fieldNNN w))
  | 0xB => some (.jumpOffset (fieldNNN w))
  | 0xC => some (.random (fieldX w) (fieldKK w))
  | 0xD => some (.draw (fieldX w) (fieldY w) (fieldN w))
  | 0xE => decodeGroupE (fieldKK w) (fieldX w)
  | _ => decodeGroupF (fieldKK w) (fieldX w)

/-- What reading one instruction from a list of bytes gives: the form and the bytes after it, or a rejection by name. -/
inductive ByteDecode where
  | form (i : Instr) (rest : List Byte)
  /-- two bytes are there and make a word of no form (R81) -/
  | unrecognized (w : Word) (rest : List Byte)
  /-- fewer than the two bytes that every instruction has (R70) -/
  | truncated
  deriving DecidableEq, Repr

/-- Decode the first instruction of a list of bytes: big-endian, two bytes, no length decode (R70, `20_memory.md` R54). -/
def decodeBytes : List Byte → ByteDecode
  | hi :: lo :: rest =>
    match decode (hi ++ lo) with
    | some i => .form i rest
    | none => .unrecognized (hi ++ lo) rest
  | [_] => .truncated
  | [] => .truncated

/-- The two bytes of a word in memory order, the high byte first (`20_memory.md` R54). -/
def wordBytes (w : Word) : List Byte := [w.extractLsb' 8 8, w.extractLsb' 0 8]

/-- The instruction word that the opcode table's number `w` of `nbits` bits stands for: the bits above `nbits` are 0. -/
def tableWord (nbits w : Nat) : Word := BitVec.ofNat 16 (w % 2 ^ nbits)

/-- The decoder asked with a word numbered as the opcode table numbers it: laid out as bytes in memory order, then decoded. -/
def decodeTableWord (nbits w : Nat) : Option Instr :=
  match decodeBytes (wordBytes (tableWord nbits w)) with
  | .form i _ => some i
  | .unrecognized _ _ => none
  | .truncated => none

/-! ## Encoding (R71, R80) -/

/-- The word of an instruction: the pattern of its row of R80 with its operand fields in place. -/
def encode : Instr → Word
  | .clearScreen => 0x00E0#16
  | .ret => 0x00EE#16
  | .jump nnn => 0x1#4 ++ nnn
  | .call nnn => 0x2#4 ++ nnn
  | .skipEqImm x kk => 0x3#4 ++ x ++ kk
  | .skipNeImm x kk => 0x4#4 ++ x ++ kk
  | .skipEqReg x y u => 0x5#4 ++ x ++ y ++ u
  | .skipNeReg x y u => 0x9#4 ++ x ++ y ++ u
  | .loadImm x kk => 0x6#4 ++ x ++ kk
  | .addImm x kk => 0x7#4 ++ x ++ kk
  | .loadReg x y => 0x8#4 ++ x ++ y ++ 0x0#4
  | .or x y => 0x8#4 ++ x ++ y ++ 0x1#4
  | .and x y => 0x8#4 ++ x ++ y ++ 0x2#4
  | .xor x y => 0x8#4 ++ x ++ y ++ 0x3#4
  | .addReg x y => 0x8#4 ++ x ++ y ++ 0x4#4
  | .subReg x y => 0x8#4 ++ x ++ y ++ 0x5#4
  | .shiftRight x y => 0x8#4 ++ x ++ y ++ 0x6#4
  | .subnReg x y => 0x8#4 ++ x ++ y ++ 0x7#4
  | .shiftLeft x y => 0x8#4 ++ x ++ y ++ 0xE#4
  | .setIndex nnn => 0xA#4 ++ nnn
  | .jumpOffset nnn => 0xB#4 ++ nnn
  | .random x kk => 0xC#4 ++ x ++ kk
  | .draw x y n => 0xD#4 ++ x ++ y ++ n
  | .skipKeyPressed x => 0xE#4 ++ x ++ 0x9E#8
  | .skipKeyNotPressed x => 0xE#4 ++ x ++ 0xA1#8
  | .loadDelay x => 0xF#4 ++ x ++ 0x07#8
  | .waitKey x => 0xF#4 ++ x ++ 0x0A#8
  | .setDelay x => 0xF#4 ++ x ++ 0x15#8
  | .setSound x => 0xF#4 ++ x ++ 0x18#8
  | .addIndex x => 0xF#4 ++ x ++ 0x1E#8
  | .loadGlyphAddr x => 0xF#4 ++ x ++ 0x29#8
  | .storeBcd x => 0xF#4 ++ x ++ 0x33#8
  | .storeRegs x => 0xF#4 ++ x ++ 0x55#8
  | .loadRegs x => 0xF#4 ++ x ++ 0x65#8

/-! ## The opcode table (R80, spec/opcode_table.json) -/

/-- One row of the opcode table: a word `w` is of the row's form exactly when `w & mask = pattern`. -/
structure OpcodeRow where
  mnemonic : String
  mask : Word
  pattern : Word
  deriving DecidableEq, Repr

/-- A word lies in a row. -/
def OpcodeRow.covers (r : OpcodeRow) (w : Word) : Bool := (w &&& r.mask) == r.pattern

/-- The row of each form: its mask and pattern as spec/opcode_table.json gives them. -/
def opcodeRow : Instr → OpcodeRow
  | .clearScreen => ⟨"clear-screen", 0xFFFF#16, 0x00E0#16⟩
  | .ret => ⟨"return", 0xFFFF#16, 0x00EE#16⟩
  | .jump _ => ⟨"jump", 0xF000#16, 0x1000#16⟩
  | .call _ => ⟨"call", 0xF000#16, 0x2000#16⟩
  | .skipEqImm _ _ => ⟨"skip-eq-imm", 0xF000#16, 0x3000#16⟩
  | .skipNeImm _ _ => ⟨"skip-ne-imm", 0xF000#16, 0x4000#16⟩
  | .skipEqReg _ _ _ => ⟨"skip-eq-reg", 0xF000#16, 0x5000#16⟩
  | .skipNeReg _ _ _ => ⟨"skip-ne-reg", 0xF000#16, 0x9000#16⟩
  | .loadImm _ _ => ⟨"load-imm", 0xF000#16, 0x6000#16⟩
  | .addImm _ _ => ⟨"add-imm", 0xF000#16, 0x7000#16⟩
  | .loadReg _ _ => ⟨"load-reg", 0xF00F#16, 0x8000#16⟩
  | .or _ _ => ⟨"or", 0xF00F#16, 0x8001#16⟩
  | .and _ _ => ⟨"and", 0xF00F#16, 0x8002#16⟩
  | .xor _ _ => ⟨"xor", 0xF00F#16, 0x8003#16⟩
  | .addReg _ _ => ⟨"add-reg", 0xF00F#16, 0x8004#16⟩
  | .subReg _ _ => ⟨"sub-reg", 0xF00F#16, 0x8005#16⟩
  | .shiftRight _ _ => ⟨"shift-right", 0xF00F#16, 0x8006#16⟩
  | .subnReg _ _ => ⟨"subn-reg", 0xF00F#16, 0x8007#16⟩
  | .shiftLeft _ _ => ⟨"shift-left", 0xF00F#16, 0x800E#16⟩
  | .setIndex _ => ⟨"set-index", 0xF000#16, 0xA000#16⟩
  | .jumpOffset _ => ⟨"jump-offset", 0xF000#16, 0xB000#16⟩
  | .random _ _ => ⟨"random", 0xF000#16, 0xC000#16⟩
  | .draw _ _ _ => ⟨"draw", 0xF000#16, 0xD000#16⟩
  | .skipKeyPressed _ => ⟨"skip-key-pressed", 0xF0FF#16, 0xE09E#16⟩
  | .skipKeyNotPressed _ => ⟨"skip-key-not-pressed", 0xF0FF#16, 0xE0A1#16⟩
  | .loadDelay _ => ⟨"load-delay", 0xF0FF#16, 0xF007#16⟩
  | .waitKey _ => ⟨"wait-key", 0xF0FF#16, 0xF00A#16⟩
  | .setDelay _ => ⟨"set-delay", 0xF0FF#16, 0xF015#16⟩
  | .setSound _ => ⟨"set-sound", 0xF0FF#16, 0xF018#16⟩
  | .addIndex _ => ⟨"add-index", 0xF0FF#16, 0xF01E#16⟩
  | .loadGlyphAddr _ => ⟨"load-glyph-addr", 0xF0FF#16, 0xF029#16⟩
  | .storeBcd _ => ⟨"store-bcd", 0xF0FF#16, 0xF033#16⟩
  | .storeRegs _ => ⟨"store-regs", 0xF0FF#16, 0xF055#16⟩
  | .loadRegs _ => ⟨"load-regs", 0xF0FF#16, 0xF065#16⟩

/-- One instruction of each form, in the table's order. -/
def formSamples : List Instr :=
  [.clearScreen, .ret, .jump 0, .call 0, .skipEqImm 0 0, .skipNeImm 0 0, .skipEqReg 0 0 0, .skipNeReg 0 0 0,
    .loadImm 0 0, .addImm 0 0, .loadReg 0 0, .or 0 0, .and 0 0, .xor 0 0, .addReg 0 0, .subReg 0 0, .shiftRight 0 0] ++
  [.subnReg 0 0, .shiftLeft 0 0, .setIndex 0, .jumpOffset 0, .random 0 0, .draw 0 0 0, .skipKeyPressed 0,
    .skipKeyNotPressed 0, .loadDelay 0, .waitKey 0, .setDelay 0, .setSound 0, .addIndex 0, .loadGlyphAddr 0,
    .storeBcd 0, .storeRegs 0, .loadRegs 0]

/-- The 34 rows of the opcode table, in its order. -/
def opcodeRows : List OpcodeRow := formSamples.map opcodeRow

end Sys2Proof
end

