-- ==== Sys2Proof/Config.lean ====
section
/-! DEFINITION. What the spec leaves to a parameter or leaves free: the types of the BCD order and of the two readings of `add-index`'s flag, and the random byte. The parameters' default values stand in `Sys2Proof/Machine/Params.lean`. -/

namespace Sys2Proof

/-- The two values of the spec's parameter `P_BCD_ORDER` (`00_scope.md` R6). -/
inductive BcdOrder where
  /-- hundreds, ones, tens: the spec's default -/
  | observed
  /-- hundreds, tens, ones -/
  | canonical
  deriving DecidableEq, Repr

/-- The two sums the spec's texts take for the flag of `add-index`, which differ only past 0xFFFF (log 6). -/
inductive IndexFlagSum where
  /-- the sum at 16 bits, "the same 16-bit sum as the write": `43_index_memory.md` R181, `95_test_vectors.md` V-MEM-5 -/
  | sixteenBit
  /-- the sum as an exact integer, "the unwrapped sum": `92_eei_decisions.md` D18 -/
  | unwrapped
  deriving DecidableEq, Repr

/-- FREE VALUE (`42_alu.md` R162, D21; log 2): the byte of the machine's n-th draw.  The spec gives no generator, seed or
distribution, so nothing here can evaluate it: a claim that uses it holds for every byte. -/
opaque Config.randomByte : Nat → Byte

end Sys2Proof
end

