-- ==== Sys2Proof/Machine/Params.lean ====
section
/-! DEFINITION. The fixed parameters of the core (spec/00_scope.md R5 to R7) at the values the spec gives, and what memory holds before anything is written (spec/20_memory.md R51, spec/10_state.md R39). -/

namespace Sys2Proof.Machine

/-- The highest memory address, `MEM_SIZE - 1` (`00_scope.md` R5, `20_memory.md` R50). -/
def memTop : Nat := 0xFFF

/-- `LOAD_BASE`, where programs are loaded and the first step fetches (`00_scope.md` R5, `70_reset_and_hazards.md` R281). -/
def loadBase : Nat := 0x200

/-- `MAX_PROGRAM`, `4096 - 512` bytes (`00_scope.md` R5, `60_exceptions.md` R258). -/
def maxProgram : Nat := 3584

/-- `P_BCD_ORDER` at the spec's default, OBSERVED (`00_scope.md` R6, D12; log 5). -/
def bcdOrder : BcdOrder := .observed

/-- Which sum the flag of `add-index` is taken of: the one `43_index_memory.md` R181 states and V-MEM-5 shows, not that
of D18's row (DEDUCED, log 6). -/
def indexFlagSum : IndexFlagSum := .sixteenBit

/-- `GLYPHS` at the spec's default, the conventional font (`00_scope.md` R7, D20; PRESUMED by the spec itself, log 3): digit by digit,
five bytes each. -/
def glyphs : List Byte :=
  [0xF0, 0x90, 0x90, 0x90, 0xF0] ++ [0x20, 0x60, 0x20, 0x20, 0x70] ++ [0xF0, 0x10, 0xF0, 0x80, 0xF0] ++
  [0xF0, 0x10, 0xF0, 0x10, 0xF0] ++ [0x90, 0x90, 0xF0, 0x10, 0x10] ++ [0xF0, 0x80, 0xF0, 0x10, 0xF0] ++
  [0xF0, 0x80, 0xF0, 0x90, 0xF0] ++ [0xF0, 0x10, 0x20, 0x40, 0x40] ++ [0xF0, 0x90, 0xF0, 0x90, 0xF0] ++
  [0xF0, 0x90, 0xF0, 0x10, 0xF0] ++ [0xF0, 0x90, 0xF0, 0x90, 0x90] ++ [0xE0, 0x90, 0xE0, 0x90, 0xE0] ++
  [0xF0, 0x80, 0x80, 0x80, 0xF0] ++ [0xE0, 0x90, 0x90, 0x90, 0xE0] ++ [0xF0, 0x80, 0xF0, 0x80, 0xF0] ++
  [0xF0, 0x80, 0xF0, 0x80, 0x80]

/-- What an address reads as until something is written to it: its content at initialization, the glyph table at 0x000..0x04F and
zero beyond it (`10_state.md` R39, `20_memory.md` R51). -/
def unlisted (a : Nat) : Byte := (glyphs[a]?).getD 0

end Sys2Proof.Machine
end

