-- ==== Sys2Proof/Machine/State.lean ====
section
/-! DEFINITION. The core's state (spec/10_state.md R20), its reset value (R39), and the reasons a step can stop. Plain data throughout. -/

namespace Sys2Proof.Machine

/-- The program store (`10_state.md` R29, `20_memory.md` R50): the bytes that differ from what `unlisted` gives, by rising address. -/
abbrev Memory := List Host.Cell

/-- The canonical form from an address on: addresses strictly rising, none above 0xFFF, no entry equal to what an unlisted address
reads as. -/
def Memory.wfFrom (lo : Nat) : Memory → Bool
  | [] => true
  | (a, v) :: rest => decide (lo ≤ a) && decide (a ≤ memTop) && (v != unlisted a) && Memory.wfFrom (a + 1) rest

/-- The canonical form of memory: equal memories are equal lists. -/
def Memory.wf (m : Memory) : Bool := Memory.wfFrom 0 m

/-- The framebuffer, 32 rows of 64 one-bit cells (`10_state.md` R30). -/
abbrev FrameBuffer := Vector (Vector Bool 64) 32

/-- The halting fault kinds (`60_exceptions.md` R241). -/
inductive HaltKind where
  | fetchBound
  | memBound
  | stackOverflow
  | stackUnderflow
  | keyRange
  deriving DecidableEq, Repr

/-- The halt record's content (`10_state.md` R34): `word` is absent for `fetchBound`. -/
structure HaltRecord where
  kind : HaltKind
  pc : Word
  word : Option Word
  info : Word
  deriving DecidableEq, Repr

/-- The invalid-word record's content (`10_state.md` R33). -/
structure InvalidRecord where
  pc : Word
  word : Word
  deriving DecidableEq, Repr

/-- The state of the core (`10_state.md` R20). The last two fields are the model's own: `tone` is the output of the latest step
(`40_step_cycle.md` R111; log 1), `draws` counts the random bytes drawn and selects the free value (`42_alu.md` R162; log 2). -/
structure State where
  /-- `V[0..15]` (R21) -/
  v : Vector Byte 16
  /-- `I` (R23) -/
  index : Word
  /-- `pc` (R24) -/
  pc : Word
  /-- `sp`, legal values 0..16 (R25) -/
  sp : Byte
  /-- `stack[0..15]` (R26) -/
  stack : Vector Word 16
  /-- `DT` (R27) -/
  delay : Byte
  /-- `ST` (R28) -/
  sound : Byte
  /-- `M` (R29) -/
  mem : Memory
  /-- `FB` (R30) -/
  fb : FrameBuffer
  /-- `redraw` (R31) -/
  redraw : Bool
  /-- `Key[0..15]`, true for pressed (R32) -/
  keys : Vector Bool 16
  /-- `invalid` (R33) -/
  invalid : Option InvalidRecord
  /-- `halt` (R34) -/
  halt : Option HaltRecord
  /-- the model's own: the output of the latest step -/
  tone : Bool
  /-- the model's own: how many bytes `random` has drawn -/
  draws : Nat
  deriving DecidableEq, Repr

/-- The state after initialization and before any program load (`10_state.md` R39, `70_reset_and_hazards.md` R280). Memory lists
nothing: every address reads as its initial content. The values of `tone` (log 1) and `draws` (log 2) are the model's. -/
def State.reset : State where
  v := Vector.replicate 16 0
  index := 0
  pc := 0x0200
  sp := 0
  stack := Vector.replicate 16 0
  delay := 0
  sound := 0
  mem := []
  fb := Vector.replicate 32 (Vector.replicate 64 false)
  redraw := false
  keys := Vector.replicate 16 false
  invalid := none
  halt := none
  tone := false
  draws := 0

/-- The reasons a step stops with no next state. The spec's halting faults are none of these: they are taken, into the halt record. -/
inductive Fault where
  /-- Raised by `call` and `return` alone, in a state with `sp` above 16, whose stack entry does not exist. `10_state.md` R25 says `sp`
  never leaves 0..16, so no run reaches it. Safe: the model stops where the spec gives no effect (log 4). -/
  | stackEntryAbsent
  deriving DecidableEq, Repr

/-- The reasons a request is given no meaning. -/
inductive Refusal where
  /-- Raised by no meaning: `exec` would answer it for an instruction without one, and every instruction has one. Safe. -/
  | notModelled (mnemonic : String)
  /-- Raised by the host operation `set_key` alone, for an index outside 0..15, which `60_exceptions.md` R262 says is no operation of
  the core. Safe: the spec's own refusal. -/
  | keyIndexAbsent
  deriving DecidableEq, Repr

end Sys2Proof.Machine
end

