-- ==== Sys2Proof/Machine/Ops.lean ====
section
/-! DEFINITION. The shared operations of the machine: registers, stack, memory (spec/20_memory.md R53), framebuffer cells, key levels, fetch (spec/40_step_cycle.md R102), outcomes, pc and timers (R104 to R108), the unrecognized word (R110), and taking a halting fault (spec/60_exceptions.md R242). -/

namespace Sys2Proof.Machine

/-- What a meaning answers. -/
abbrev StepResult := Host.Outcome State Fault Refusal

/-! ## General registers (`10_state.md` R21) -/

/-- `V[r]`. -/
def getV (r : Nibble) (s : State) : Byte := s.v[r.toNat]'r.isLt

/-- `V[r] <- b`. -/
def setV (r : Nibble) (b : Byte) (s : State) : State := { s with v := s.v.set r.toNat b r.isLt }

/-- The number of VF, the flag register (`10_state.md` R22). -/
def regVF : Nibble := 0xF#4

/-- `I <- w` (`10_state.md` R23). -/
def setIndexReg (w : Word) (s : State) : State := { s with index := w }

/-- `V[k] <- b₀`, `V[k+1] <- b₁`, … in ascending order (`43_index_memory.md` R186). -/
def setRegsFrom (k : Nat) : List Byte → Vector Byte 16 → Vector Byte 16
  | [], v => v
  | b :: bs, v => setRegsFrom (k + 1) bs (v.setIfInBounds k b)

/-! ## The stack (`10_state.md` R25, R26) -/

/-- `stack[sp] <- pc; sp <- sp + 1` (`41_control_flow.md` R133); `none` where the entry does not exist. -/
def pushPc (s : State) : Option State :=
  if s.sp.toNat < 16 then some { s with stack := s.stack.setIfInBounds s.sp.toNat s.pc, sp := s.sp + 1#8 } else none

/-- `sp <- sp - 1`, answering `stack[sp]` (`41_control_flow.md` R131); `none` where the entry does not exist. -/
def popEntry (s : State) : Option (Word × State) :=
  (s.stack[(s.sp - 1#8).toNat]?).map fun entry => (entry, { s with sp := s.sp - 1#8 })

/-! ## Memory (`20_memory.md` R50, R53, R56) -/

/-- The byte a memory holds at an address. -/
def cellRead : Memory → Nat → Byte
  | [], a => unlisted a
  | (b, v) :: rest, a => if a = b then v else cellRead rest a

/-- A memory without its entries at an address. -/
def cellErase (m : Memory) (a : Nat) : Memory := m.filter fun cell => cell.1 != a

/-- A memory with an entry put before the first entry of a higher address. -/
def cellInsert : Memory → Nat → Byte → Memory
  | [], a, v => [(a, v)]
  | (b, w) :: rest, a, v => if a < b then (a, v) :: (b, w) :: rest else (b, w) :: cellInsert rest a v

/-- A memory with one byte written (`M[a] <- v`, `20_memory.md` R53), in canonical form again: a byte equal to what an unlisted address
reads as is not listed. -/
def cellWrite (m : Memory) (a : Nat) (v : Byte) : Memory :=
  if v = unlisted a then cellErase m a else cellInsert (cellErase m a) a v

/-- The bytes at `a, a+1, …, a+n-1`. -/
def cellReads (m : Memory) (a : Nat) : Nat → List Byte
  | 0 => []
  | n + 1 => cellRead m a :: cellReads m (a + 1) n

/-- Writing a list of bytes at ascending addresses from `a`. -/
def cellWrites (m : Memory) (a : Nat) : List Byte → Memory
  | [] => m
  | b :: bs => cellWrites (cellWrite m a b) (a + 1) bs

/-- Whether every address of a run of `n` bytes from `a` exists; the sum is exact, not wrapped (`20_memory.md` R53). A run of no bytes
accesses nothing (`44_display.md` R206). -/
def memFits (a n : Nat) : Bool := n == 0 || decide (a + (n - 1) ≤ memTop)

/-- A block of byte reads, every address checked first (`43_index_memory.md` R186, `44_display.md` R202); `none` is `MemBound`. -/
def loadBlock (a n : Nat) (s : State) : Option (List Byte) :=
  if memFits a n then some (cellReads s.mem a n) else none

/-- A block of byte writes, every address checked first (`43_index_memory.md` R184, R185); `none` is `MemBound`. -/
def storeBlock (a : Nat) (bs : List Byte) (s : State) : Option State :=
  if memFits a bs.length then some { s with mem := cellWrites s.mem a bs } else none

/-- The byte of a state's memory at an address. -/
def memByte (s : State) (a : Nat) : Byte := cellRead s.mem a

/-! ## Framebuffer cells (`10_state.md` R30) -/

/-- `FB[r][c]`. -/
def fbGet (fb : FrameBuffer) (r : Fin 32) (c : Fin 64) : Bool := (fb[r.val]'r.isLt)[c.val]'c.isLt

/-- `FB[r][c] <- b`. -/
def fbSet (fb : FrameBuffer) (r : Fin 32) (c : Fin 64) (b : Bool) : FrameBuffer :=
  fb.set r.val ((fb[r.val]'r.isLt).set c.val b c.isLt) r.isLt

/-- Every cell 0 (`44_display.md` R201). -/
def fbClear : FrameBuffer := Vector.replicate 32 (Vector.replicate 64 false)

/-! ## Key levels (`10_state.md` R32, `45_timers_input.md` R226) -/

/-- `Key[k]`; `none` where the latch has no such key. -/
def keyLevel (k : Nat) (s : State) : Option Bool := s.keys[k]?

/-- The lowest pressed key, scanning 0x0..0xF in ascending order (`45_timers_input.md` R225). -/
def firstKey (s : State) : Option Nat := (List.range 16).find? fun k => (keyLevel k s).getD false

/-! ## Outcomes, the pc and the timers (`40_step_cycle.md` R104 to R108) -/

/-- The outcomes of a form that does not fault (`40_step_cycle.md` R104). -/
inductive FormOutcome where
  | next
  | skip (taken : Bool)
  | jump (target : Word)
  | stallWait
  | stallInvalid
  deriving DecidableEq, Repr

/-- `update_pc`, at 16 bits (`40_step_cycle.md` R105). -/
def updatePc (o : FormOutcome) (s : State) : State :=
  match o with
  | .next => { s with pc := s.pc + 2#16 }
  | .skip taken => { s with pc := s.pc + if taken then 4#16 else 2#16 }
  | .jump target => { s with pc := target }
  | .stallWait => s
  | .stallInvalid => s

/-- One count of a timer: down by 1 while nonzero, floor at 0 (`40_step_cycle.md` R107). -/
def countDown (t : Byte) : Byte := if t = 0#8 then 0#8 else t - 1#8

/-- `timer_update`: both timers count down, and the tone fires exactly when `ST` was 1 (`40_step_cycle.md` R107, R108). -/
def timerUpdate (s : State) : State :=
  { s with delay := countDown s.delay, sound := countDown s.sound, tone := s.sound == 1#8 }

/-- A step that runs no timer update outputs tone 0 (`40_step_cycle.md` R100). -/
def noTone (s : State) : State := { s with tone := false }

/-- The end of a step that does not fault: the pc's update, then the timers', which a stalling `wait-key` skips
(`40_step_cycle.md` R100, R106). -/
def finish (o : FormOutcome) (s : State) : State :=
  match o with
  | .stallWait => noTone (updatePc .stallWait s)
  | .next => timerUpdate (updatePc .next s)
  | .skip taken => timerUpdate (updatePc (.skip taken) s)
  | .jump target => timerUpdate (updatePc (.jump target) s)
  | .stallInvalid => timerUpdate (updatePc .stallInvalid s)

/-- A form's normal end. -/
def done (o : FormOutcome) (s : State) : StepResult := .next (finish o s)

/-! ## Halting faults (`60_exceptions.md` R241, R242) -/

/-- `raise Fault(kind, info)`: the halt record takes the kind, the pc, the word and the info; nothing else changes, no timer counts, the
tone is 0 (R242). -/
def raiseFault (kind : HaltKind) (info : Word) (word : Option Word) (s : State) : State :=
  noTone { s with halt := some { kind := kind, pc := s.pc, word := word, info := info } }

/-- A form's end in a halting fault: the record holds the form's own word. -/
def raise (kind : HaltKind) (info : Word) (i : Instr) (s : State) : StepResult :=
  .next (raiseFault kind info (some (encode i)) s)

/-- The info of `MemBound`: the lowest address of the access that does not exist, `max(I, 0x1000)` (R241). -/
def memBoundInfo (index : Word) : Word := if index.toNat < 0x1000 then 0x1000#16 else index

/-- A data form's end in `MemBound` (R241). -/
def raiseMemBound (i : Instr) (s : State) : StepResult := raise .memBound (memBoundInfo s.index) i s

/-- The spec's cause codes of the halting faults (R241). -/
def haltCode : HaltKind → Nat
  | .fetchBound => 2
  | .memBound => 3
  | .stackOverflow => 4
  | .stackUnderflow => 5
  | .keyRange => 6

/-- The cause code a state reports (R241): the halting fault's, else 1 for a recorded invalid word, else 0. DESIGN CHOICE (log 11): R241 gives
a code per fault kind and R266 returns both records, so which code a state with both reports is left open; here the halting fault's wins. -/
def causeCode (s : State) : Nat :=
  match s.halt, s.invalid with
  | some h, _ => haltCode h.kind
  | none, some _ => 1
  | none, none => 0

/-! ## Fetch, the unrecognized word and the halted core (`40_step_cycle.md` R101, R102, R110) -/

/-- `fetch`: the big-endian word at `pc`, `pc + 1`; `none` is `FetchBound`, for a `pc` above 0xFFE (R102). -/
def fetch (s : State) : Option Word :=
  if s.pc.toNat > 0xFFE then none else some (memByte s s.pc.toNat ++ memByte s (s.pc.toNat + 1))

/-- The step whose fetch faults (R102): no word is recorded. -/
def fetchFault (s : State) : StepResult := .next (raiseFault .fetchBound s.pc none s)

/-- `invalid <- (pc, w)` if it is empty (R110, `10_state.md` R33). -/
def recordInvalid (w : Word) (s : State) : State :=
  match s.invalid with
  | some _ => s
  | none => { s with invalid := some { pc := s.pc, word := w } }

/-- The step on an unrecognized word (R110): the record, the stall, and the timers' count. -/
def execUnrecognized (w : Word) (s : State) : StepResult := done .stallInvalid (recordInvalid w s)

/-- The step of a halted core: nothing changes, the tone is 0 (R101). -/
def haltedStep (s : State) : StepResult := .next (noTone s)

/-- A memory with a word placed at an address, high byte first, as a program load would place it (`20_memory.md` R54, `60_exceptions.md`
R257); bytes beyond 0xFFF do not exist and are not placed. -/
def placeWord (a : Nat) (w : Word) (m : Memory) : Memory :=
  if memFits a 2 then cellWrites m a (wordBytes w) else m

end Sys2Proof.Machine
end

