-- ==== Sys2Proof/Machine/Flags.lean ====
section
/-! DEFINITION. Every flag computation of the spec (spec/10_state.md R36, spec/42_alu.md R150): the byte VF takes. -/

namespace Sys2Proof.Machine

/-- `(c ? 1 : 0)` (`00_scope.md` R9). -/
def flagByte (c : Bool) : Byte := if c then 1#8 else 0#8

/-- The carry of `add-reg`: `b > 255 - a` (`42_alu.md` R157). -/
def addCarry (a b : Byte) : Byte := flagByte (decide (b.toNat > 255 - a.toNat))

/-- `a > b`, strictly: the flag of `sub-reg` with `a = Vx` (`42_alu.md` R158), of `subn-reg` with `a = Vy` (R160). -/
def above (a b : Byte) : Byte := flagByte (decide (a.toNat > b.toNat))

/-- The bit `shift-right` shifts out (`42_alu.md` R159). -/
def lowBit (a : Byte) : Byte := a &&& 1#8

/-- The bit `shift-left` shifts out (`42_alu.md` R161). -/
def highBit (a : Byte) : Byte := a >>> 7

/-- The flag of `add-index`: the sum is above 0xFFF (`43_index_memory.md` R181). -/
def indexOverflow (sum : Nat) : Byte := flagByte (decide (sum > 0xFFF))

/-- `V[F] <- b`. -/
def setVF (b : Byte) (s : State) : State := setV regVF b s

end Sys2Proof.Machine
end

