-- ==== Sys2Proof/Machine/Operands.lean ====
section
/-! DEFINITION. Every operand form of spec/30_encoding.md R72, R73 as the forms use it: widened immediates and registers, blocks of registers, BCD digits, glyph addresses, sprite coordinates. -/

namespace Sys2Proof.Machine

/-- `zext_16(nnn)` (`30_encoding.md` R73). -/
def addrOperand (nnn : Addr) : Word := nnn.setWidth 16

/-- `zext_16` of a register's value (`00_scope.md` R9). -/
def wideByte (b : Byte) : Word := b.setWidth 16

/-- `nnn + V[0]` at 16 bits, the target of `jump-offset` (`41_control_flow.md` R134). -/
def offsetTarget (nnn : Addr) (s : State) : Word := addrOperand nnn + wideByte (getV 0#4 s)

/-- The values of `V[0..x]` in ascending order (`43_index_memory.md` R185). -/
def blockRegs (x : Nibble) (s : State) : List Byte := s.v.toList.take (x.toNat + 1)

/-- `I + Vx` as the flag of `add-index` takes it: at 16 bits (`43_index_memory.md` R181) or exact (`92_eei_decisions.md` D18). -/
def indexSum (reading : IndexFlagSum) (index : Word) (v : Byte) : Nat :=
  match reading with
  | .sixteenBit => (index + wideByte v).toNat
  | .unwrapped => index.toNat + v.toNat

/-- How many registers a block `V[0..x]` has. -/
def blockSize (x : Nibble) : Nat := x.toNat + 1

/-- `zext_16(x + 1)`, what a block form leaves in `I` (`43_index_memory.md` R185, R186). -/
def blockIndex (x : Nibble) : Word := BitVec.ofNat 16 (blockSize x)

/-- `zext_16(v) · 5`, the address of a glyph (`43_index_memory.md` R182). -/
def glyphAddress (v : Byte) : Word := wideByte v * 5#16

/-- The hundreds digit (`43_index_memory.md` R183). -/
def hundreds (v : Byte) : Byte := v / 100#8

/-- The tens digit (`43_index_memory.md` R183). -/
def tens (v : Byte) : Byte := v / 10#8 % 10#8

/-- The ones digit (`43_index_memory.md` R183). -/
def ones (v : Byte) : Byte := v % 10#8

/-- The three bytes `store-bcd` writes, for either value of `P_BCD_ORDER` (`43_index_memory.md` R184). -/
def bcdBytes (order : BcdOrder) (v : Byte) : List Byte :=
  match order with
  | .observed => [hundreds v, ones v, tens v]
  | .canonical => [hundreds v, tens v, ones v]

/-- `(cy + i) mod 32` (`44_display.md` R205). -/
def spriteRow (cy : Byte) (i : Nat) : Fin 32 := Fin.ofNat 32 (cy.toNat + i)

/-- `(cx + j) mod 64` (`44_display.md` R205). -/
def spriteCol (cx : Byte) (j : Nat) : Fin 64 := Fin.ofNat 64 (cx.toNat + j)

/-- The pixel of a sprite byte at column offset `j`: bit 7 is offset 0 (`44_display.md` R203). -/
def spritePixel (row : Byte) (j : Nat) : Bool := row.getLsbD (7 - j)

end Sys2Proof.Machine
end

