-- ==== Sys2Proof/Machine/Alu.lean ====
section
/-! DEFINITION. Register loads, ALU and random (spec/42_alu.md R150 to R162). Statements run in the order written and a later one reads what an earlier one wrote (spec/00_scope.md R11): a flag is written first, and the operands are read again after it. -/

namespace Sys2Proof.Machine

/-- `load-imm Vx, kk` (R151). -/
def execLoadImm (x : Nibble) (kk : Byte) (s : State) : StepResult := done .next (setV x kk s)

/-- `add-imm Vx, kk` (R152): wraps, no flag. -/
def execAddImm (x : Nibble) (kk : Byte) (s : State) : StepResult := done .next (setV x (getV x s + kk) s)

/-- `load-reg Vx, Vy` (R153). -/
def execLoadReg (x y : Nibble) (s : State) : StepResult := done .next (setV x (getV y s) s)

/-- `or Vx, Vy` (R154): no flag. -/
def execOr (x y : Nibble) (s : State) : StepResult := done .next (setV x (getV x s ||| getV y s) s)

/-- `and Vx, Vy` (R155): no flag. -/
def execAnd (x y : Nibble) (s : State) : StepResult := done .next (setV x (getV x s &&& getV y s) s)

/-- `xor Vx, Vy` (R156): no flag. -/
def execXor (x y : Nibble) (s : State) : StepResult := done .next (setV x (getV x s ^^^ getV y s) s)

/-- `V[x] <- V[x] +₈ V[y]`, the second statement of `add-reg` (R157). -/
def addInto (x y : Nibble) (s : State) : State := setV x (getV x s + getV y s) s

/-- `V[x] <- V[x] −₈ V[y]`, the second statement of `sub-reg` and of `subn-reg` (R158, R160). -/
def subInto (x y : Nibble) (s : State) : State := setV x (getV x s - getV y s) s

/-- `add-reg Vx, Vy` (R157). -/
def execAddReg (x y : Nibble) (s : State) : StepResult :=
  done .next (addInto x y (setVF (addCarry (getV x s) (getV y s)) s))

/-- `sub-reg Vx, Vy` (R158): the flag is strict. -/
def execSubReg (x y : Nibble) (s : State) : StepResult :=
  done .next (subInto x y (setVF (above (getV x s) (getV y s)) s))

/-- `subn-reg Vx, Vy` (R160): the same subtraction as `sub-reg`, the flag the other way round (C7). -/
def execSubnReg (x y : Nibble) (s : State) : StepResult :=
  done .next (subInto x y (setVF (above (getV y s) (getV x s)) s))

/-- `shift-right Vx` (R159): `y` is ignored. -/
def execShiftRight (x : Nibble) (s : State) : StepResult :=
  let s1 := setVF (lowBit (getV x s)) s
  done .next (setV x (getV x s1 >>> 1) s1)

/-- `shift-left Vx` (R161): `y` is ignored. -/
def execShiftLeft (x : Nibble) (s : State) : StepResult :=
  let s1 := setVF (highBit (getV x s)) s
  done .next (setV x (getV x s1 <<< 1) s1)

/-- The next random byte is drawn: a free value, a fresh one for each draw (R162; log 2). -/
def drawRandom (s : State) : Byte × State := (Config.randomByte s.draws, { s with draws := s.draws + 1 })

/-- `random Vx, kk` (R162). -/
def execRandom (x : Nibble) (kk : Byte) (s : State) : StepResult :=
  done .next (setV x ((drawRandom s).1 &&& kk) (drawRandom s).2)

end Sys2Proof.Machine
end

