-- ==== Sys2Proof/Machine/ControlFlow.lean ====
section
/-! DEFINITION. Jumps, call, return and the register skips (spec/41_control_flow.md R130 to R138). `pc` is the instruction's own address until the outcome's update. -/

namespace Sys2Proof.Machine

/-- `return` (R131): `StackUnderflow` for an empty stack; else the entry below `sp`, plus 2. -/
def execRet (s : State) : StepResult :=
  if s.sp = 0#8 then raise .stackUnderflow 0#16 .ret s
  else match popEntry s with
    | none => .fault .stackEntryAbsent
    | some (entry, s1) => done (.jump (entry + 2#16)) s1

/-- `jump nnn` (R132). -/
def execJump (nnn : Addr) (s : State) : StepResult := done (.jump (addrOperand nnn)) s

/-- `call nnn` (R133): `StackOverflow` for a full stack; else pushes the call's own address. -/
def execCall (nnn : Addr) (s : State) : StepResult :=
  if s.sp = 16#8 then raise .stackOverflow 16#16 (.call nnn) s
  else match pushPc s with
    | none => .fault .stackEntryAbsent
    | some s1 => done (.jump (addrOperand nnn)) s1

/-- `jump-offset nnn` (R134): always `V0`, no mask. -/
def execJumpOffset (nnn : Addr) (s : State) : StepResult := done (.jump (offsetTarget nnn s)) s

/-- `skip-eq-imm Vx, kk` (R135). -/
def execSkipEqImm (x : Nibble) (kk : Byte) (s : State) : StepResult := done (.skip (getV x s == kk)) s

/-- `skip-ne-imm Vx, kk` (R136). -/
def execSkipNeImm (x : Nibble) (kk : Byte) (s : State) : StepResult := done (.skip (getV x s != kk)) s

/-- `skip-eq-reg Vx, Vy` (R137). -/
def execSkipEqReg (x y : Nibble) (s : State) : StepResult := done (.skip (getV x s == getV y s)) s

/-- `skip-ne-reg Vx, Vy` (R138). -/
def execSkipNeReg (x y : Nibble) (s : State) : StepResult := done (.skip (getV x s != getV y s)) s

end Sys2Proof.Machine
end

