-- ==== Sys2Proof/Machine/Display.lean ====
section
/-! DEFINITION. Framebuffer clear and sprite draw (spec/44_display.md R200 to R206). -/

namespace Sys2Proof.Machine

/-- `clear-screen` (R201): every cell 0, the redraw flag set. -/
def execClearScreen (s : State) : StepResult := done .next { s with fb := fbClear, redraw := true }

/-- A draw in progress: the framebuffer so far and the collision so far (R202). -/
structure Blit where
  fb : FrameBuffer
  collision : Bool
  deriving DecidableEq, Repr

/-- One 1-bit of the sprite on one cell: a collision if the cell is 1, and the cell toggles (R202, R204). -/
def plotPixel (r : Fin 32) (c : Fin 64) (b : Blit) : Blit :=
  { fb := fbSet b.fb r c (!fbGet b.fb r c), collision := b.collision || fbGet b.fb r c }

/-- The pixels of one sprite byte at column offsets `js`, on one framebuffer row (R202, R203, R205). -/
def drawPixels (r : Fin 32) (cx : Byte) (row : Byte) : List Nat → Blit → Blit
  | [], b => b
  | j :: js, b => drawPixels r cx row js (if spritePixel row j then plotPixel r (spriteCol cx j) b else b)

/-- The rows of a sprite from row offset `i` on (R202, R205). -/
def drawRows (cx cy : Byte) (i : Nat) : List Byte → Blit → Blit
  | [], b => b
  | row :: rows, b => drawRows cx cy (i + 1) rows (drawPixels (spriteRow cy i) cx row (List.range 8) b)

/-- `draw Vx, Vy, n` (R202): coordinates before any write, bound check before any effect, VF after the last cell. -/
def execDraw (x y n : Nibble) (s : State) : StepResult :=
  match loadBlock s.index.toNat n.toNat s with
  | none => raiseMemBound (.draw x y n) s
  | some rows =>
    let b := drawRows (getV x s) (getV y s) 0 rows { fb := s.fb, collision := false }
    done .next (setVF (flagByte b.collision) { s with fb := b.fb, redraw := true })

end Sys2Proof.Machine
end

