-- ==== Sys2Proof/Machine/IndexMemory.lean ====
section
/-! DEFINITION. The index register and the forms that store to and load from memory (spec/43_index_memory.md R180 to R186). Addresses are exact sums from `I`; a block that does not fit faults before anything changes. -/

namespace Sys2Proof.Machine

/-- `set-index nnn` (R180). -/
def execSetIndex (nnn : Addr) (s : State) : StepResult := done .next (setIndexReg (addrOperand nnn) s)

/-- `add-index Vx` for either reading of the flag's sum (R181; D18): VF first; the write's sum, always at 16 bits, is then taken again, with
the new VF when `x = F`. -/
def addIndex (reading : IndexFlagSum) (x : Nibble) (s : State) : StepResult :=
  let s1 := setVF (indexOverflow (indexSum reading s.index (getV x s))) s
  done .next (setIndexReg (s1.index + wideByte (getV x s1)) s1)

/-- `add-index Vx`, with the flag of R181 (log 6). -/
def execAddIndex (x : Nibble) (s : State) : StepResult := addIndex indexFlagSum x s

/-- `load-glyph-addr Vx` (R182). -/
def execLoadGlyphAddr (x : Nibble) (s : State) : StepResult := done .next (setIndexReg (glyphAddress (getV x s)) s)

/-- `store-bcd Vx` for either value of `P_BCD_ORDER` (R184). -/
def storeBcd (order : BcdOrder) (x : Nibble) (s : State) : StepResult :=
  match storeBlock s.index.toNat (bcdBytes order (getV x s)) s with
  | none => raiseMemBound (.storeBcd x) s
  | some s1 => done .next s1

/-- `store-bcd Vx` (R184) with the parameter's value. -/
def execStoreBcd (x : Nibble) (s : State) : StepResult := storeBcd bcdOrder x s

/-- `store-regs Vx` (R185). -/
def execStoreRegs (x : Nibble) (s : State) : StepResult :=
  match storeBlock s.index.toNat (blockRegs x s) s with
  | none => raiseMemBound (.storeRegs x) s
  | some s1 => done .next (setIndexReg (blockIndex x) s1)

/-- `load-regs Vx` (R186). -/
def execLoadRegs (x : Nibble) (s : State) : StepResult :=
  match loadBlock s.index.toNat (blockSize x) s with
  | none => raiseMemBound (.loadRegs x) s
  | some bytes => done .next (setIndexReg (blockIndex x) { s with v := setRegsFrom 0 bytes s.v })

end Sys2Proof.Machine
end

