-- ==== Sys2Proof/Machine/TimersInput.lean ====
section
/-! DEFINITION. Timer and input-latch forms (spec/45_timers_input.md R220 to R226). The countdown of the same step follows them (spec/40_step_cycle.md R109). -/

namespace Sys2Proof.Machine

/-- `load-delay Vx` (R220): `DT` before this step's countdown. -/
def execLoadDelay (x : Nibble) (s : State) : StepResult := done .next (setV x s.delay s)

/-- `set-delay Vx` (R221). -/
def execSetDelay (x : Nibble) (s : State) : StepResult := done .next { s with delay := getV x s }

/-- `set-sound Vx` (R222). -/
def execSetSound (x : Nibble) (s : State) : StepResult := done .next { s with sound := getV x s }

/-- `skip-key-pressed Vx` (R223): `KeyRange` for an index the latch does not have. -/
def execSkipKeyPressed (x : Nibble) (s : State) : StepResult :=
  match keyLevel (getV x s).toNat s with
  | none => raise .keyRange (wideByte (getV x s)) (.skipKeyPressed x) s
  | some pressed => done (.skip pressed) s

/-- `skip-key-not-pressed Vx` (R224): `KeyRange` for an index the latch does not have. -/
def execSkipKeyNotPressed (x : Nibble) (s : State) : StepResult :=
  match keyLevel (getV x s).toNat s with
  | none => raise .keyRange (wideByte (getV x s)) (.skipKeyNotPressed x) s
  | some pressed => done (.skip (!pressed)) s

/-- `wait-key Vx` (R225): the lowest pressed key, or a full stall. -/
def execWaitKey (x : Nibble) (s : State) : StepResult :=
  match firstKey s with
  | some k => done .next (setV x (BitVec.ofNat 8 k) s)
  | none => done .stallWait s

end Sys2Proof.Machine
end

