-- ==== Sys2Proof/Machine/Step.lean ====
section
/-! DEFINITION. One step of the core (spec/40_step_cycle.md R100). -/

namespace Sys2Proof.Machine

/-- `step` (R100): a halted core does nothing (R101); else fetch (R102), decode (R103) and execute, or stall on an unrecognized word
(R110). Each of these ends the step by itself: the pc's and the timers' updates stand in `finish`. -/
def step (s : State) : Host.Outcome State Fault Refusal :=
  match s.halt with
  | some _ => haltedStep s
  | none =>
    match fetch s with
    | none => fetchFault s
    | some w =>
      match decode w with
      | some i => exec i s
      | none => execUnrecognized w s

/-- `s` with the opcode table's word placed where `step` fetches next, as a program load would place it (log 7). A halted core and a
`pc` above 0xFFE fetch nothing, whatever memory holds. -/
def State.withFetchWord (s : State) (nbits w : Nat) : State :=
  { s with mem := placeWord s.pc.toNat (tableWord nbits w) s.mem }

end Sys2Proof.Machine
end

