-- ==== Sys2Proof/Machine/HostInterface.lean ====
section
/-! DEFINITION. The host's six operations (spec/60_exceptions.md R255 to R266) and a run of them (spec/70_reset_and_hazards.md R284). -/

namespace Sys2Proof.Machine

/-- The operations the core exposes (R255). The key index is a number of the host's, so that an index outside 0..15 can be refused. -/
inductive HostOp where
  | step
  | load (bytes : List Byte)
  | loadUnreadable
  | setKey (k : Nat) (pressed : Bool)
  | queryFramebuffer
  | queryFaults
  deriving DecidableEq, Repr

/-- What an operation gives back (R255). -/
inductive HostResult where
  | tone (t : Bool)
  | ok
  | sizeError
  | ioError
  | nothing
  | framebuffer (cells : FrameBuffer) (redraw : Bool)
  | faults (invalid : Option InvalidRecord) (halt : Option HaltRecord)
  deriving DecidableEq, Repr

/-- An operation's answer: its result and the state after it, or a stop. -/
abbrev HostAnswer := Host.Outcome (HostResult × State) Fault Refusal

/-- `step()` (R256): one step, giving its tone (R264). -/
def hostStep (s : State) : HostAnswer :=
  match step s with
  | .next t => .next (.tone t.tone, t)
  | .fault r => .fault r
  | .refused r => .refused r

/-- `load(bytes)` (R257, R258, R260): the bytes from 0x200 on, or `SizeError` and no change. -/
def hostLoad (bytes : List Byte) (s : State) : HostAnswer :=
  if bytes.length ≤ maxProgram then .next (.ok, { s with mem := cellWrites s.mem loadBase bytes })
  else .next (.sizeError, s)

/-- `load_unreadable()` (R259). -/
def hostLoadUnreadable (s : State) : HostAnswer := .next (.ioError, s)

/-- `set_key(k, pressed)` (R261); refused outside 0..15 (R262). -/
def hostSetKey (k : Nat) (pressed : Bool) (s : State) : HostAnswer :=
  if k < 16 then .next (.nothing, { s with keys := s.keys.setIfInBounds k pressed }) else .refused .keyIndexAbsent

/-- `query_framebuffer()` (R263): the cells and the redraw flag, which the same action clears. -/
def hostQueryFramebuffer (s : State) : HostAnswer := .next (.framebuffer s.fb s.redraw, { s with redraw := false })

/-- `query_faults()` (R266): both records, nothing changed. -/
def hostQueryFaults (s : State) : HostAnswer := .next (.faults s.invalid s.halt, s)

/-- One host operation (R255). -/
def hostOp (op : HostOp) (s : State) : HostAnswer :=
  match op with
  | .step => hostStep s
  | .load bytes => hostLoad bytes s
  | .loadUnreadable => hostLoadUnreadable s
  | .setKey k pressed => hostSetKey k pressed s
  | .queryFramebuffer => hostQueryFramebuffer s
  | .queryFaults => hostQueryFaults s

/-- A run (`70_reset_and_hazards.md` R284): the host's operations in order, with every result, up to the first stop. -/
def hostRun : List HostOp → State → Host.Outcome (List HostResult × State) Fault Refusal
  | [], s => .next ([], s)
  | op :: ops, s =>
    match hostOp op s with
    | .fault r => .fault r
    | .refused r => .refused r
    | .next (r, s1) =>
      match hostRun ops s1 with
      | .fault f => .fault f
      | .refused f => .refused f
      | .next (rs, s2) => .next (r :: rs, s2)

end Sys2Proof.Machine
end

