-- ==== Sys2Proof/Safety.lean ====
section
/-! DEFINITION. The terms claims are stated in: what counts as a clean run, the invariant of every run, and what a transition leaves as it was. Each is written over the state's fields alone, not over the operations that the meanings use. -/

namespace Sys2Proof.Safety

open Sys2Proof.Machine

/-- Both fault records are empty: the premise of a claim that a program runs correctly (`60_exceptions.md` R243). -/
def clean (s : State) : Prop := s.invalid = none ∧ s.halt = none

/-! ## What a transition keeps -/

/-- Every general register outside `written` holds what it held. -/
def regsKept (written : List Nibble) (s t : State) : Prop := ∀ r, r ∉ written → getV r t = getV r s

/-- Every byte of memory reads as before. -/
def memKept (s t : State) : Prop := ∀ a, memByte t a = memByte s a

/-- Every byte of memory outside the `n` bytes from `lo` reads as before. -/
def memKeptOutside (lo n : Nat) (s t : State) : Prop := ∀ a, a < lo ∨ lo + n ≤ a → memByte t a = memByte s a

/-- The stack and its pointer are as before. -/
def stackKept (s t : State) : Prop := t.sp = s.sp ∧ t.stack = s.stack

/-- The framebuffer and the redraw flag are as before. -/
def displayKept (s t : State) : Prop := t.fb = s.fb ∧ t.redraw = s.redraw

/-- The input latch and both fault records are as before. -/
def recordsKept (s t : State) : Prop := t.keys = s.keys ∧ t.invalid = s.invalid ∧ t.halt = s.halt

/-- The timers counted down once from the values `delay` and `sound`, each with its floor at 0, and the tone tells whether `sound`
was 1 (`40_step_cycle.md` R107, R108). -/
def countedFrom (delay sound : Byte) (t : State) : Prop :=
  t.delay.toNat = delay.toNat - 1 ∧ t.sound.toNat = sound.toNat - 1 ∧ (t.tone = true ↔ sound = 1#8)

/-- The timers counted down once and nothing wrote them before that. -/
def timersCounted (s t : State) : Prop := countedFrom s.delay s.sound t

/-- No timer counted and the step's tone is 0. -/
def timersKept (s t : State) : Prop := t.delay = s.delay ∧ t.sound = s.sound ∧ t.tone = false

/-- The end of a form that writes at most the registers `written` (and, where its statement says so, the pc): all else is as before,
and the timers counted. -/
def onlyRegs (written : List Nibble) (s t : State) : Prop :=
  regsKept written s t ∧ t.index = s.index ∧ stackKept s t ∧ memKept s t ∧ displayKept s t ∧ recordsKept s t ∧
    t.draws = s.draws ∧ timersCounted s t

/-- The end of a form that writes `I` and at most the registers `written`: all else but the pc is as before, and the timers counted. -/
def onlyRegsAndIndex (written : List Nibble) (s t : State) : Prop :=
  regsKept written s t ∧ stackKept s t ∧ memKept s t ∧ displayKept s t ∧ recordsKept s t ∧ t.draws = s.draws ∧ timersCounted s t

/-- The end of a form that stores `n` bytes from `lo`: the registers and every other byte are as before, so is all else but `I` and the
pc, and the timers counted. -/
def onlyMemory (lo n : Nat) (s t : State) : Prop :=
  regsKept [] s t ∧ stackKept s t ∧ memKeptOutside lo n s t ∧ displayKept s t ∧ recordsKept s t ∧ t.draws = s.draws ∧
    timersCounted s t

/-- The state a halting fault leaves: the record, tone 0, and nothing else changed (`60_exceptions.md` R242). -/
def halted (kind : HaltKind) (info : Word) (word : Option Word) (s : State) : State :=
  { s with halt := some { kind := kind, pc := s.pc, word := word, info := info }, tone := false }

/-- The state `MemBound` leaves: its info is the lowest address that does not exist, `max(I, 0x1000)` (`60_exceptions.md` R241). -/
def haltedMemBound (i : Instr) (s : State) : State :=
  halted .memBound (BitVec.ofNat 16 (max s.index.toNat 0x1000)) (some (encode i)) s

/-- The sprite pixel of `draw Vx, Vy, n` that lands on the cell of row `r` and column `c` is there and is 1
(`44_display.md` R202, R203, R205). -/
def spriteCovers (x y n : Nibble) (s : State) (r : Fin 32) (c : Fin 64) : Prop :=
  ∃ i, i < n.toNat ∧ ∃ j, j < 8 ∧ ((getV y s).toNat + i) % 32 = r.val ∧ ((getV x s).toNat + j) % 64 = c.val ∧
    (memByte s (s.index.toNat + i)).getLsbD (7 - j) = true

/-! ## The invariant of every run -/

/-- `sp` is in 0..16 (`10_state.md` R25) and every entry is an address a `call` was fetched from (`41_control_flow.md` R131). -/
def stackOk (s : State) : Prop := s.sp.toNat ≤ 16 ∧ ∀ k, k < 16 → ∀ w, s.stack[k]? = some w → w.toNat ≤ 0xFFE

/-- The info a halting fault of each kind records (`60_exceptions.md` R241). -/
def infoOk (h : HaltRecord) : Prop :=
  match h.kind with
  | .fetchBound => h.info = h.pc ∧ 0xFFE < h.pc.toNat
  | .memBound => 0x1000 ≤ h.info.toNat
  | .stackOverflow => h.info = 16#16
  | .stackUnderflow => h.info = 0#16
  | .keyRange => 0xF < h.info.toNat ∧ h.info.toNat ≤ 0xFF

/-- The halt record names the instruction the core stands at; its word is absent for `FetchBound` alone and else decodes
(`10_state.md` R34, `60_exceptions.md` R244). -/
def haltOk (s : State) : Prop :=
  ∀ h, s.halt = some h → h.pc = s.pc ∧ infoOk h ∧ (h.word = none ↔ h.kind = .fetchBound) ∧ ∀ w, h.word = some w → decode w ≠ none

/-- The invalid-word record names a word of no form, fetched from an address that exists (`10_state.md` R33). -/
def invalidOk (s : State) : Prop := ∀ r, s.invalid = some r → decode r.word = none ∧ r.pc.toNat ≤ 0xFFE

/-- What every run keeps: memory in canonical form, the stack legal, the pc at most 0x10FE (`10_state.md` R24), both records as the spec
says they are written. -/
def Inv (s : State) : Prop :=
  s.mem.wf = true ∧ stackOk s ∧ s.pc.toNat ≤ 0x10FE ∧ haltOk s ∧ invalidOk s

end Sys2Proof.Safety
end

