-- ==== Sys2Proof/Certificates/Slice0/Obligations.lean ====
section
/-! DEFINITION. The statements of this model: encoding, the step cycle, every instruction form, the whole machine, the host's operations. `Sys2Proof/Safety.lean` holds the terms they use. A statement about a form also says which words decode to it, by its pattern in spec/30_encoding.md R80. -/

open Sys2Proof Sys2Proof.Machine Sys2Proof.Safety

/-! ## Reset -/

/-- `10_state.md` R39, `70_reset_and_hazards.md` R280: every piece of the spec's state at its reset value. Of the two fields of the model's
own nothing is said. -/
def Obligations.ResetHoldsTheSpecsValues : Prop :=
  (∀ r, getV r State.reset = 0) ∧ State.reset.index = 0 ∧ State.reset.pc = 0x0200 ∧ State.reset.sp = 0 ∧
    (∀ k, k < 16 → State.reset.stack[k]? = some 0) ∧ State.reset.delay = 0 ∧ State.reset.sound = 0 ∧
    (∀ a, a ≤ 0x04F → glyphs[a]? = some (memByte State.reset a)) ∧ (∀ a, 0x050 ≤ a → memByte State.reset a = 0) ∧
    (∀ r c, fbGet State.reset.fb r c = false) ∧ State.reset.redraw = false ∧
    (∀ k, k < 16 → keyLevel k State.reset = some false) ∧ State.reset.invalid = none ∧ State.reset.halt = none

/-- `70_reset_and_hazards.md` R283: with no program loaded the first step stalls and records the word 0x0000 at 0x200. -/
def Obligations.FirstStepWithoutProgramStalls : Prop :=
  ∃ t, step State.reset = .next t ∧ t.pc = 0x0200 ∧ t.invalid = some { pc := 0x0200, word := 0x0000 } ∧ t.halt = none

/-! ## Encoding -/

/-- `30_encoding.md` R71, R72, R80: decoding an instruction's word gives the instruction, for every instruction and every operand value, the ignored bits included. -/
def Obligations.DecodeOfEncode : Prop := ∀ i : Instr, decode (encode i) = some i

/-- `30_encoding.md` R71, R72, R80: a word that decodes is the word of the instruction it decodes to: decoding drops no bit. -/
def Obligations.EncodeOfDecode : Prop := ∀ (w : Word) (i : Instr), decode w = some i → encode i = w

/-- `30_encoding.md` R80: a word decodes to a form exactly when it matches that form's row, no word matches two rows, and there are 34
rows. -/
def Obligations.DecodeFollowsTheOpcodeTable : Prop :=
  opcodeRows.length = 34 ∧
    (∀ (w : Word) (i : Instr), decode w = some i → ∀ row ∈ opcodeRows, row.covers w = true ↔ row = opcodeRow i) ∧
    ∀ w : Word, decode w = none → ∀ row ∈ opcodeRows, row.covers w = false

/-- `30_encoding.md` R81: exactly these words are unrecognized. -/
def Obligations.ExactlyTheseWordsAreUnrecognized : Prop :=
  ∀ w : Word, decode w = none ↔
    (w.toNat / 0x1000 = 0x0 ∧ w.toNat ≠ 0x00E0 ∧ w.toNat ≠ 0x00EE) ∨
    (w.toNat / 0x1000 = 0x8 ∧ w.toNat % 16 ∈ [0x8, 0x9, 0xA, 0xB, 0xC, 0xD, 0xF]) ∨
    (w.toNat / 0x1000 = 0xE ∧ w.toNat % 256 ∉ [0x9E, 0xA1]) ∨
    (w.toNat / 0x1000 = 0xF ∧ w.toNat % 256 ∉ [0x07, 0x0A, 0x15, 0x18, 0x1E, 0x29, 0x33, 0x55, 0x65])

/-- Words of every family, written out from the patterns of `30_encoding.md` R80, decode to the instructions they stand for (the words are
those of the examples of files 41 to 45). -/
def Obligations.WordsOfEveryFamilyDecode : Prop :=
  decode 0x2300 = some (.call 0x300) ∧ decode 0x3310 = some (.skipEqImm 3 0x10) ∧ decode 0x637B = some (.loadImm 3 0x7B) ∧
    decode 0x8344 = some (.addReg 3 4) ∧ decode 0xC30F = some (.random 3 0x0F) ∧ decode 0xA300 = some (.setIndex 0x300) ∧
    decode 0xF333 = some (.storeBcd 3) ∧ decode 0xD011 = some (.draw 0 1 1) ∧ decode 0xF307 = some (.loadDelay 3) ∧
    decode 0xE39E = some (.skipKeyPressed 3) ∧ decodeTableWord 16 0xE3A1 = some (.skipKeyNotPressed 3)

/-- `30_encoding.md` R76, R79: the low nibble of the register skips and the `y` of the shifts change nothing that executes. -/
def Obligations.IgnoredBitsChangeNothing : Prop :=
  (∀ x y u u' s, exec (.skipEqReg x y u) s = exec (.skipEqReg x y u') s) ∧
    (∀ x y u u' s, exec (.skipNeReg x y u) s = exec (.skipNeReg x y u') s) ∧
    (∀ x y y' s, exec (.shiftRight x y) s = exec (.shiftRight x y') s) ∧
    ∀ x y y' s, exec (.shiftLeft x y) s = exec (.shiftLeft x y') s

/-! ## The step -/

/-- `40_step_cycle.md` R100, R102, `20_memory.md` R54: of a core that is not halted, with its pc at most 0xFFE, the big-endian word at the
pc is fetched, and where it decodes the step is that instruction's; `exec` holds all that follows decoding, the pc's and the timers'
updates included. -/
def Obligations.StepRunsTheDecodedInstruction : Prop :=
  ∀ (s : State) (i : Instr), s.halt = none → s.pc.toNat ≤ 0xFFE →
    decode (memByte s s.pc.toNat ++ memByte s (s.pc.toNat + 1)) = some i → step s = exec i s

/-- `40_step_cycle.md` R110: an unrecognized word is recorded unless a record is there, the pc stays, the timers count, nothing else
changes. -/
def Obligations.UnrecognizedWordStalls : Prop :=
  ∀ s : State, s.halt = none → s.pc.toNat ≤ 0xFFE → decode (memByte s s.pc.toNat ++ memByte s (s.pc.toNat + 1)) = none →
    ∃ t, step s = .next t ∧ t.pc = s.pc ∧
      t.invalid = some (s.invalid.getD { pc := s.pc, word := memByte s s.pc.toNat ++ memByte s (s.pc.toNat + 1) }) ∧
      regsKept [] s t ∧ t.index = s.index ∧ stackKept s t ∧ memKept s t ∧ displayKept s t ∧ t.keys = s.keys ∧ t.halt = s.halt ∧
      t.draws = s.draws ∧ timersCounted s t

/-- `40_step_cycle.md` R102: a fetch reads the big-endian word at the pc, and above 0xFFE the step halts with `FetchBound`, the pc as its
info and no word. -/
def Obligations.FetchReadsTheWordOrHalts : Prop :=
  ∀ s : State, s.halt = none →
    (s.pc.toNat ≤ 0xFFE → fetch s = some (memByte s s.pc.toNat ++ memByte s (s.pc.toNat + 1))) ∧
    (0xFFE < s.pc.toNat → step s = .next (halted .fetchBound s.pc none s))

/-- `40_step_cycle.md` R101: a step of a halted core changes nothing and outputs no tone. -/
def Obligations.HaltedCoreTakesNoStep : Prop :=
  ∀ s : State, s.halt ≠ none → step s = .next { s with tone := false }

/-! ## The whole machine -/

/-- Every step keeps the invariant, from every state that has it. -/
def Obligations.EveryStepKeepsInv : Prop := ∀ s t : State, Inv s → step s = .next t → Inv t

/-- Every operation of the host keeps the invariant. -/
def Obligations.EveryHostOperationKeepsInv : Prop :=
  ∀ (op : HostOp) (s : State) (r : HostResult) (t : State), Inv s → hostOp op s = .next (r, t) → Inv t

/-- The reset state has the invariant. -/
def Obligations.ResetHasInv : Prop := Inv State.reset

/-- In a state with the invariant no step stops the model: a halting fault of the spec is a next state too. -/
def Obligations.EveryStepAnswersNext : Prop := ∀ s : State, Inv s → ∃ t, step s = .next t

/-- `60_exceptions.md` R244: a step that writes the halt record leaves everything else as it was (its tone is 0), and the record names the
pc of the faulting instruction. -/
def Obligations.HaltingFaultsArePrecise : Prop :=
  ∀ s t : State, step s = .next t → t.halt ≠ s.halt →
    ∃ h, t = { s with halt := some h, tone := false } ∧ h.pc = s.pc

/-- `60_exceptions.md` R247: no step and no operation of the host empties or overwrites a fault record. -/
def Obligations.FaultRecordsStay : Prop :=
  ∀ (op : HostOp) (s : State) (r : HostResult) (t : State), hostOp op s = .next (r, t) →
    (∀ h, s.halt = some h → t.halt = some h) ∧ ∀ v, s.invalid = some v → t.invalid = some v

/-- `20_memory.md` R56: no form but `store-bcd` and `store-regs` changes a byte of memory, and no form but `clear-screen` and `draw` changes
a cell or the redraw flag (`10_state.md` R30, R31). -/
def Obligations.OnlyTheseFormsWriteMemoryOrDisplay : Prop :=
  ∀ (i : Instr) (s t : State), exec i s = .next t →
    ((∀ x, i ≠ .storeBcd x) → (∀ x, i ≠ .storeRegs x) → memKept s t) ∧
    (i ≠ .clearScreen → (∀ x y n, i ≠ .draw x y n) → displayKept s t)

/-- `10_state.md` R23, R25: no form but `call` and `return` changes the stack or its pointer, and no form but the five named changes `I`. -/
def Obligations.OnlyTheseFormsWriteStackOrIndex : Prop :=
  ∀ (i : Instr) (s t : State), exec i s = .next t →
    (i ≠ .ret → (∀ nnn, i ≠ .call nnn) → stackKept s t) ∧
    ((∀ nnn, i ≠ .setIndex nnn) → (∀ x, i ≠ .addIndex x) → (∀ x, i ≠ .loadGlyphAddr x) → (∀ x, i ≠ .storeRegs x) →
      (∀ x, i ≠ .loadRegs x) → t.index = s.index)

/-- `40_step_cycle.md` R106 to R109: whatever the form, the timers count down exactly once, from the value `set-delay` or `set-sound` has
just written, unless the form faulted or is a `wait-key` that stalls: those count nothing and leave the pc. -/
def Obligations.TimersCountOncePerStep : Prop :=
  ∀ (i : Instr) (s t : State), exec i s = .next t →
    (countedFrom (match i with | .setDelay x => getV x s | _ => s.delay) (match i with | .setSound x => getV x s | _ => s.sound) t ∧
      t.halt = s.halt) ∨
    (timersKept s t ∧ t.pc = s.pc ∧ (t.halt ≠ none ∨ (∃ x, i = .waitKey x) ∧ ∀ k, k < 16 → keyLevel k s = some false))

/-- `10_state.md` R32, R33: no form changes the input latch or the invalid record. -/
def Obligations.FormsNeverWriteKeysOrInvalid : Prop :=
  ∀ (i : Instr) (s t : State), exec i s = .next t → t.keys = s.keys ∧ t.invalid = s.invalid

/-- `20_memory.md` R64, `70_reset_and_hazards.md` R286: a `store-regs` that writes the word after it is seen by the next fetch. -/
def Obligations.NextFetchSeesStoredWord : Prop :=
  ∀ (x : Nibble) (s : State) (p q : Nibble), s.index.toNat + x.toNat ≤ 0xFFF → q.toNat = p.toNat + 1 → q.toNat ≤ x.toNat →
    s.pc.toNat + 2 = s.index.toNat + p.toNat →
    ∃ t, exec (.storeRegs x) s = .next t ∧ fetch t = some (getV p s ++ getV q s)

/-! ## Control flow -/

/-- `41_control_flow.md` R132, R134: the pc becomes the target, not masked, and nothing else changes but the timers. -/
def Obligations.JumpsSetThePc : Prop :=
  ∀ (nnn : Addr) (s : State),
    (decode (0x1#4 ++ nnn) = some (.jump nnn) ∧
      ∃ t, exec (.jump nnn) s = .next t ∧ t.pc.toNat = nnn.toNat ∧ onlyRegs [] s t) ∧
    decode (0xB#4 ++ nnn) = some (.jumpOffset nnn) ∧
    ∃ t, exec (.jumpOffset nnn) s = .next t ∧ t.pc.toNat = nnn.toNat + (getV 0#4 s).toNat ∧ onlyRegs [] s t

/-- `41_control_flow.md` R133: with `sp` below 16 `call` pushes its own address and jumps; at 16 it halts with `StackOverflow`. -/
def Obligations.CallPushesItsOwnAddress : Prop :=
  ∀ (nnn : Addr) (s : State),
    decode (0x2#4 ++ nnn) = some (.call nnn) ∧
    (s.sp.toNat < 16 → ∃ t, exec (.call nnn) s = .next t ∧ t.pc.toNat = nnn.toNat ∧ t.sp.toNat = s.sp.toNat + 1 ∧
      t.stack[s.sp.toNat]? = some s.pc ∧ (∀ k, k ≠ s.sp.toNat → t.stack[k]? = s.stack[k]?) ∧
      regsKept [] s t ∧ t.index = s.index ∧ memKept s t ∧ displayKept s t ∧ recordsKept s t ∧ t.draws = s.draws ∧ timersCounted s t) ∧
    (s.sp = 16#8 → exec (.call nnn) s = .next (halted .stackOverflow 16#16 (some (encode (.call nnn))) s))

/-- `41_control_flow.md` R131: with `sp` in 1..16 `return` goes to the word after the popped address and leaves the entry; at 0 it halts
with `StackUnderflow`. -/
def Obligations.ReturnPopsTheLatestCall : Prop :=
  ∀ s : State,
    decode 0x00EE = some .ret ∧
    (0 < s.sp.toNat → s.sp.toNat ≤ 16 → ∃ t entry, exec .ret s = .next t ∧ s.stack[s.sp.toNat - 1]? = some entry ∧
      t.pc = entry + 2#16 ∧ t.sp.toNat = s.sp.toNat - 1 ∧ t.stack = s.stack ∧
      regsKept [] s t ∧ t.index = s.index ∧ memKept s t ∧ displayKept s t ∧ recordsKept s t ∧ t.draws = s.draws ∧ timersCounted s t) ∧
    (s.sp = 0#8 → exec .ret s = .next (halted .stackUnderflow 0#16 (some 0x00EE#16) s))

/-- A `call` and then a `return` come back to the word after the call with the stack pointer as it was (the round trip of
`95_test_vectors.md` X1, in general). -/
def Obligations.CallThenReturnComesBack : Prop :=
  ∀ (nnn : Addr) (s : State), s.sp.toNat < 16 →
    ∃ t u, exec (.call nnn) s = .next t ∧ exec .ret t = .next u ∧ u.pc = s.pc + 2#16 ∧ u.sp = s.sp ∧
      ∀ k, k < s.sp.toNat → u.stack[k]? = s.stack[k]?

/-- The MODEL'S choice (log 4), not the spec's: with `sp` above 16, which `10_state.md` R25 rules out, `call` and `return` reach for a stack
entry that does not exist, and the model stops with a fault of its own. -/
def Obligations.NoStackEntryBeyondSixteen : Prop :=
  ∀ (nnn : Addr) (s : State), 16 < s.sp.toNat →
    exec (.call nnn) s = .fault .stackEntryAbsent ∧ exec .ret s = .fault .stackEntryAbsent

/-- `41_control_flow.md` R135, R136: 4 on when the condition holds, else 2. -/
def Obligations.ImmediateSkips : Prop :=
  ∀ (x : Nibble) (kk : Byte) (s : State),
    (decode (0x3#4 ++ x ++ kk) = some (.skipEqImm x kk) ∧
      ∃ t, exec (.skipEqImm x kk) s = .next t ∧ t.pc = s.pc + (if (getV x s).toNat = kk.toNat then 4#16 else 2#16) ∧ onlyRegs [] s t) ∧
    decode (0x4#4 ++ x ++ kk) = some (.skipNeImm x kk) ∧
    ∃ t, exec (.skipNeImm x kk) s = .next t ∧ t.pc = s.pc + (if (getV x s).toNat = kk.toNat then 2#16 else 4#16) ∧ onlyRegs [] s t

/-- `41_control_flow.md` R137, R138: 4 on when the condition holds, else 2, for every value of the ignored nibble. -/
def Obligations.RegisterSkips : Prop :=
  ∀ (x y u : Nibble) (s : State),
    (decode (0x5#4 ++ x ++ y ++ u) = some (.skipEqReg x y u) ∧
      ∃ t, exec (.skipEqReg x y u) s = .next t ∧ t.pc = s.pc + (if (getV x s).toNat = (getV y s).toNat then 4#16 else 2#16) ∧
      onlyRegs [] s t) ∧
    decode (0x9#4 ++ x ++ y ++ u) = some (.skipNeReg x y u) ∧
    ∃ t, exec (.skipNeReg x y u) s = .next t ∧ t.pc = s.pc + (if (getV x s).toNat = (getV y s).toNat then 2#16 else 4#16) ∧
      onlyRegs [] s t

/-! ## Loads, ALU and random -/

/-- `42_alu.md` R151, R153. -/
def Obligations.LoadsWriteVx : Prop :=
  ∀ (x y : Nibble) (kk : Byte) (s : State),
    (decode (0x6#4 ++ x ++ kk) = some (.loadImm x kk) ∧
      ∃ t, exec (.loadImm x kk) s = .next t ∧ getV x t = kk ∧ t.pc = s.pc + 2#16 ∧ onlyRegs [x] s t) ∧
    decode (0x8#4 ++ x ++ y ++ 0x0#4) = some (.loadReg x y) ∧
    ∃ t, exec (.loadReg x y) s = .next t ∧ getV x t = getV y s ∧ t.pc = s.pc + 2#16 ∧ onlyRegs [x] s t

/-- `42_alu.md` R152: the sum modulo 256; VF is written only as `Vx`. -/
def Obligations.AddImmWrapsWithoutFlag : Prop :=
  ∀ (x : Nibble) (kk : Byte) (s : State),
    decode (0x7#4 ++ x ++ kk) = some (.addImm x kk) ∧
    ∃ t, exec (.addImm x kk) s = .next t ∧ (getV x t).toNat = ((getV x s).toNat + kk.toNat) % 256 ∧ t.pc = s.pc + 2#16 ∧
      onlyRegs [x] s t

/-- `42_alu.md` R154, R155, R156: bit by bit; VF is written only as `Vx`. -/
def Obligations.BitwiseFormsCombineBits : Prop :=
  ∀ (x y : Nibble) (s : State),
    (decode (0x8#4 ++ x ++ y ++ 0x1#4) = some (.or x y) ∧
      ∃ t, exec (.or x y) s = .next t ∧ (∀ b, (getV x t).getLsbD b = ((getV x s).getLsbD b || (getV y s).getLsbD b)) ∧
      t.pc = s.pc + 2#16 ∧ onlyRegs [x] s t) ∧
    (decode (0x8#4 ++ x ++ y ++ 0x2#4) = some (.and x y) ∧
      ∃ t, exec (.and x y) s = .next t ∧ (∀ b, (getV x t).getLsbD b = ((getV x s).getLsbD b && (getV y s).getLsbD b)) ∧
      t.pc = s.pc + 2#16 ∧ onlyRegs [x] s t) ∧
    decode (0x8#4 ++ x ++ y ++ 0x3#4) = some (.xor x y) ∧
    ∃ t, exec (.xor x y) s = .next t ∧ (∀ b, (getV x t).getLsbD b = ((getV x s).getLsbD b ^^ (getV y s).getLsbD b)) ∧
      t.pc = s.pc + 2#16 ∧ onlyRegs [x] s t

/-- `42_alu.md` R157, every corner: the flag is the carry of the values on entry, and is written first. -/
def Obligations.AddRegSumsAndCarries : Prop :=
  ∀ (x y : Nibble) (s : State) (c : Byte), c = (if (getV x s).toNat + (getV y s).toNat > 255 then 1#8 else 0#8) →
    decode (0x8#4 ++ x ++ y ++ 0x4#4) = some (.addReg x y) ∧
    ∃ t, exec (.addReg x y) s = .next t ∧
      (x ≠ 0xF#4 → y ≠ 0xF#4 → (getV x t).toNat = ((getV x s).toNat + (getV y s).toNat) % 256 ∧ getV 0xF#4 t = c) ∧
      (x = 0xF#4 → y ≠ 0xF#4 → getV 0xF#4 t = c + getV y s) ∧
      (y = 0xF#4 → x ≠ 0xF#4 → getV 0xF#4 t = c ∧ getV x t = getV x s + c) ∧
      (x = 0xF#4 → y = 0xF#4 → getV 0xF#4 t = c + c) ∧
      t.pc = s.pc + 2#16 ∧ onlyRegs [x, 0xF#4] s t

/-- `42_alu.md` R158, every corner: the flag is `Vx > Vy` on entry, strictly, and is written first. -/
def Obligations.SubRegSubtractsAndFlags : Prop :=
  ∀ (x y : Nibble) (s : State) (c : Byte), c = (if (getV x s).toNat > (getV y s).toNat then 1#8 else 0#8) →
    decode (0x8#4 ++ x ++ y ++ 0x5#4) = some (.subReg x y) ∧
    ∃ t, exec (.subReg x y) s = .next t ∧
      (x ≠ 0xF#4 → y ≠ 0xF#4 → (getV x t).toNat = ((getV x s).toNat + 256 - (getV y s).toNat) % 256 ∧ getV 0xF#4 t = c) ∧
      (x = 0xF#4 → y ≠ 0xF#4 → getV 0xF#4 t = c - getV y s) ∧
      (y = 0xF#4 → x ≠ 0xF#4 → getV 0xF#4 t = c ∧ getV x t = getV x s - c) ∧
      (x = 0xF#4 → y = 0xF#4 → getV 0xF#4 t = 0#8) ∧
      t.pc = s.pc + 2#16 ∧ onlyRegs [x, 0xF#4] s t

/-- `42_alu.md` R160, every corner: the flag is `Vy > Vx` on entry, the result `Vx - Vy`. -/
def Obligations.SubnRegSubtractsTheSameWay : Prop :=
  ∀ (x y : Nibble) (s : State) (c : Byte), c = (if (getV y s).toNat > (getV x s).toNat then 1#8 else 0#8) →
    decode (0x8#4 ++ x ++ y ++ 0x7#4) = some (.subnReg x y) ∧
    ∃ t, exec (.subnReg x y) s = .next t ∧
      (x ≠ 0xF#4 → y ≠ 0xF#4 → (getV x t).toNat = ((getV x s).toNat + 256 - (getV y s).toNat) % 256 ∧ getV 0xF#4 t = c) ∧
      (x = 0xF#4 → y ≠ 0xF#4 → getV 0xF#4 t = c - getV y s) ∧
      (y = 0xF#4 → x ≠ 0xF#4 → getV 0xF#4 t = c ∧ getV x t = getV x s - c) ∧
      (x = 0xF#4 → y = 0xF#4 → getV 0xF#4 t = 0#8) ∧
      t.pc = s.pc + 2#16 ∧ onlyRegs [x, 0xF#4] s t

/-- `42_alu.md` R159, R161: VF takes the bit shifted out, first; `Vx = VF` then shifts that bit; `y` is ignored. -/
def Obligations.ShiftsMoveVxAndFlagTheBit : Prop :=
  ∀ (x y : Nibble) (s : State),
    (decode (0x8#4 ++ x ++ y ++ 0x6#4) = some (.shiftRight x y) ∧
      ∃ t, exec (.shiftRight x y) s = .next t ∧
      (x ≠ 0xF#4 → (getV x t).toNat = (getV x s).toNat / 2 ∧ (getV 0xF#4 t).toNat = (getV x s).toNat % 2) ∧
      (x = 0xF#4 → getV 0xF#4 t = 0#8) ∧ t.pc = s.pc + 2#16 ∧ onlyRegs [x, 0xF#4] s t) ∧
    decode (0x8#4 ++ x ++ y ++ 0xE#4) = some (.shiftLeft x y) ∧
    ∃ t, exec (.shiftLeft x y) s = .next t ∧
      (x ≠ 0xF#4 → (getV x t).toNat = (getV x s).toNat * 2 % 256 ∧ (getV 0xF#4 t).toNat = (getV x s).toNat / 128) ∧
      (x = 0xF#4 → (getV 0xF#4 t).toNat = (getV x s).toNat / 128 * 2) ∧ t.pc = s.pc + 2#16 ∧ onlyRegs [x, 0xF#4] s t

/-- `42_alu.md` R162: `Vx` is the next drawn byte masked with `kk`, whatever byte that is, and the next execution draws the next one. The
drawn byte is a free value (log 2). -/
def Obligations.RandomMasksAFreshByte : Prop :=
  ∀ (x : Nibble) (kk : Byte) (s : State),
    decode (0xC#4 ++ x ++ kk) = some (.random x kk) ∧
    ∃ t, exec (.random x kk) s = .next t ∧
      (∀ b, (getV x t).getLsbD b = ((Config.randomByte s.draws).getLsbD b && kk.getLsbD b)) ∧ t.draws = s.draws + 1 ∧
      t.pc = s.pc + 2#16 ∧ regsKept [x] s t ∧ t.index = s.index ∧ stackKept s t ∧ memKept s t ∧ displayKept s t ∧ recordsKept s t ∧
      timersCounted s t

/-! ## Index register and memory -/

/-- `43_index_memory.md` R180, R182. -/
def Obligations.IndexTakesAddressOrGlyph : Prop :=
  ∀ (nnn : Addr) (x : Nibble) (s : State),
    (decode (0xA#4 ++ nnn) = some (.setIndex nnn) ∧
      ∃ t, exec (.setIndex nnn) s = .next t ∧ t.index.toNat = nnn.toNat ∧ t.pc = s.pc + 2#16 ∧ onlyRegsAndIndex [] s t) ∧
    decode (0xF#4 ++ x ++ 0x29#8) = some (.loadGlyphAddr x) ∧
    ∃ t, exec (.loadGlyphAddr x) s = .next t ∧ t.index.toNat = (getV x s).toNat * 5 ∧ t.pc = s.pc + 2#16 ∧ onlyRegsAndIndex [] s t

/-- `43_index_memory.md` R181: flag and sum on the 16-bit sum of the values on entry; with `x = F` the new flag is added. Where the exact sum
is above 0xFFFF, that the flag (and with `x = F` the new `I`) is R181's and not D18's is the MODEL'S choice between two texts of the spec
(log 6, DEDUCED). -/
def Obligations.AddIndexFlagsThenAdds : Prop :=
  ∀ (x : Nibble) (s : State) (sum : Nat), sum = (s.index.toNat + (getV x s).toNat) % 0x10000 →
    decode (0xF#4 ++ x ++ 0x1E#8) = some (.addIndex x) ∧
    ∃ t, exec (.addIndex x) s = .next t ∧ getV 0xF#4 t = (if sum > 0xFFF then 1#8 else 0#8) ∧
      (x ≠ 0xF#4 → t.index.toNat = sum) ∧
      (x = 0xF#4 → t.index.toNat = (s.index.toNat + (if sum > 0xFFF then 1 else 0)) % 0x10000) ∧
      t.pc = s.pc + 2#16 ∧ onlyRegsAndIndex [0xF#4] s t

/-- `92_eei_decisions.md` D18: `add-index` with the flag of the unwrapped sum. That reading is not the instruction's own, which follows R181
(the MODEL'S choice between the two texts, log 6); wherever the sum is at most 0xFFFF the two are the same step. -/
def Obligations.AddIndexWithTheUnwrappedFlag : Prop :=
  ∀ (x : Nibble) (s : State) (sum : Nat), sum = s.index.toNat + (getV x s).toNat →
    (∃ t, addIndex .unwrapped x s = .next t ∧ getV 0xF#4 t = (if sum > 0xFFF then 1#8 else 0#8) ∧
      (x ≠ 0xF#4 → t.index.toNat = sum % 0x10000) ∧
      (x = 0xF#4 → t.index.toNat = (s.index.toNat + (if sum > 0xFFF then 1 else 0)) % 0x10000) ∧
      t.pc = s.pc + 2#16 ∧ onlyRegsAndIndex [0xF#4] s t) ∧
    (sum ≤ 0xFFFF → addIndex .unwrapped x s = exec (.addIndex x) s)

/-- `43_index_memory.md` R184: the three digits of `Vx`; `MemBound` where the three bytes do not exist. That the instruction itself has the
order OBSERVED is the MODEL'S choice (log 5), which fixes the parameter `P_BCD_ORDER` at its default of `00_scope.md` R6: the clause about
`exec` is false of a core with CANONICAL, whose order the clause about `storeBcd .canonical` states. -/
def Obligations.StoreBcdWritesThreeDigits : Prop :=
  ∀ (x : Nibble) (s : State),
    decode (0xF#4 ++ x ++ 0x33#8) = some (.storeBcd x) ∧
    (s.index.toNat + 2 ≤ 0xFFF → ∃ t, exec (.storeBcd x) s = .next t ∧
      (memByte t s.index.toNat).toNat = (getV x s).toNat / 100 ∧
      (memByte t (s.index.toNat + 1)).toNat = (getV x s).toNat % 10 ∧
      (memByte t (s.index.toNat + 2)).toNat = (getV x s).toNat / 10 % 10 ∧
      t.index = s.index ∧ t.pc = s.pc + 2#16 ∧ onlyMemory s.index.toNat 3 s t) ∧
    (s.index.toNat + 2 ≤ 0xFFF → ∃ t, storeBcd .canonical x s = .next t ∧
      (memByte t s.index.toNat).toNat = (getV x s).toNat / 100 ∧
      (memByte t (s.index.toNat + 1)).toNat = (getV x s).toNat / 10 % 10 ∧
      (memByte t (s.index.toNat + 2)).toNat = (getV x s).toNat % 10 ∧
      t.index = s.index ∧ t.pc = s.pc + 2#16 ∧ onlyMemory s.index.toNat 3 s t) ∧
    (0xFFF < s.index.toNat + 2 → exec (.storeBcd x) s = .next (haltedMemBound (.storeBcd x) s) ∧
      storeBcd .canonical x s = .next (haltedMemBound (.storeBcd x) s))

/-- `43_index_memory.md` R185: `V[0..x]` to `M[I..I+x]`, then `I = x + 1`; `MemBound` where a byte does not exist. -/
def Obligations.StoreRegsWritesTheBlock : Prop :=
  ∀ (x : Nibble) (s : State),
    decode (0xF#4 ++ x ++ 0x55#8) = some (.storeRegs x) ∧
    (s.index.toNat + x.toNat ≤ 0xFFF → ∃ t, exec (.storeRegs x) s = .next t ∧
      (∀ k : Nibble, k.toNat ≤ x.toNat → memByte t (s.index.toNat + k.toNat) = getV k s) ∧
      t.index.toNat = x.toNat + 1 ∧ t.pc = s.pc + 2#16 ∧ onlyMemory s.index.toNat (x.toNat + 1) s t) ∧
    (0xFFF < s.index.toNat + x.toNat → exec (.storeRegs x) s = .next (haltedMemBound (.storeRegs x) s))

/-- `43_index_memory.md` R186: `M[I..I+x]` to `V[0..x]`, then `I = x + 1`; `MemBound` where a byte does not exist. -/
def Obligations.LoadRegsReadsTheBlock : Prop :=
  ∀ (x : Nibble) (s : State),
    decode (0xF#4 ++ x ++ 0x65#8) = some (.loadRegs x) ∧
    (s.index.toNat + x.toNat ≤ 0xFFF → ∃ t, exec (.loadRegs x) s = .next t ∧
      (∀ k : Nibble, k.toNat ≤ x.toNat → getV k t = memByte s (s.index.toNat + k.toNat)) ∧
      (∀ k : Nibble, x.toNat < k.toNat → getV k t = getV k s) ∧
      t.index.toNat = x.toNat + 1 ∧ t.pc = s.pc + 2#16 ∧ stackKept s t ∧ memKept s t ∧ displayKept s t ∧ recordsKept s t ∧
      t.draws = s.draws ∧ timersCounted s t) ∧
    (0xFFF < s.index.toNat + x.toNat → exec (.loadRegs x) s = .next (haltedMemBound (.loadRegs x) s))

/-! ## Display -/

/-- `44_display.md` R201. -/
def Obligations.ClearScreenClearsAndRedraws : Prop :=
  decode 0x00E0 = some .clearScreen ∧
    ∀ s : State, ∃ t, exec .clearScreen s = .next t ∧ (∀ r c, fbGet t.fb r c = false) ∧ t.redraw = true ∧ t.pc = s.pc + 2#16 ∧
    regsKept [] s t ∧ t.index = s.index ∧ stackKept s t ∧ memKept s t ∧ recordsKept s t ∧ t.draws = s.draws ∧ timersCounted s t

/-- `44_display.md` R202 to R206: a cell toggles exactly when a 1-bit of the sprite lands on it, each at most once; VF is 1 exactly when
such a cell was 1; the redraw flag is set; `MemBound` where a byte of the sprite does not exist. -/
def Obligations.DrawTogglesTheCoveredCells : Prop :=
  ∀ (x y n : Nibble) (s : State),
    decode (0xD#4 ++ x ++ y ++ n) = some (.draw x y n) ∧
    (n = 0#4 ∨ s.index.toNat + (n.toNat - 1) ≤ 0xFFF → ∃ t, exec (.draw x y n) s = .next t ∧
      (∀ r c, spriteCovers x y n s r c → fbGet t.fb r c = !fbGet s.fb r c) ∧
      (∀ r c, ¬ spriteCovers x y n s r c → fbGet t.fb r c = fbGet s.fb r c) ∧
      ((∃ r c, spriteCovers x y n s r c ∧ fbGet s.fb r c = true) → getV 0xF#4 t = 1#8) ∧
      ((¬ ∃ r c, spriteCovers x y n s r c ∧ fbGet s.fb r c = true) → getV 0xF#4 t = 0#8) ∧
      t.redraw = true ∧ t.pc = s.pc + 2#16 ∧ regsKept [0xF#4] s t ∧ t.index = s.index ∧ stackKept s t ∧ memKept s t ∧ recordsKept s t ∧
      t.draws = s.draws ∧ timersCounted s t) ∧
    (n ≠ 0#4 → 0xFFF < s.index.toNat + (n.toNat - 1) → exec (.draw x y n) s = .next (haltedMemBound (.draw x y n) s))

/-- `44_display.md` R206: a draw of no rows reads nothing, whatever `I`, changes no cell, clears VF and sets the redraw flag. -/
def Obligations.DrawOfNoRowsChangesNoCell : Prop :=
  ∀ (x y : Nibble) (s : State), ∃ t, exec (.draw x y 0#4) s = .next t ∧ t.fb = s.fb ∧ getV 0xF#4 t = 0#8 ∧ t.redraw = true ∧
    t.halt = s.halt ∧ t.pc = s.pc + 2#16

/-- Drawing the same sprite twice at the same place gives the framebuffer back, and the second draw collides exactly when the first set
some cell (the property of `95_test_vectors.md` X4, in general). -/
def Obligations.DrawingTwiceRestoresTheScreen : Prop :=
  ∀ (x y n : Nibble) (s : State), x ≠ 0xF#4 → y ≠ 0xF#4 → n = 0#4 ∨ s.index.toNat + (n.toNat - 1) ≤ 0xFFF →
    ∃ t u, exec (.draw x y n) s = .next t ∧ exec (.draw x y n) t = .next u ∧ u.fb = s.fb ∧
      (getV 0xF#4 u = 1#8 ↔ ∃ r c, spriteCovers x y n s r c ∧ fbGet s.fb r c = false)

/-! ## Timers and input -/

/-- `45_timers_input.md` R220: `Vx` takes `DT` as it was before the countdown of the same step. -/
def Obligations.LoadDelayReadsBeforeTheCount : Prop :=
  ∀ (x : Nibble) (s : State),
    decode (0xF#4 ++ x ++ 0x07#8) = some (.loadDelay x) ∧
    ∃ t, exec (.loadDelay x) s = .next t ∧ getV x t = s.delay ∧ t.pc = s.pc + 2#16 ∧ onlyRegs [x] s t

/-- `45_timers_input.md` R221, R222: the written value is counted down once in the same step, and a sound timer set to 1 fires the tone. -/
def Obligations.SettingATimerCountsItOnce : Prop :=
  ∀ (x : Nibble) (s : State),
    (decode (0xF#4 ++ x ++ 0x15#8) = some (.setDelay x) ∧
      ∃ t, exec (.setDelay x) s = .next t ∧ countedFrom (getV x s) s.sound t ∧ t.pc = s.pc + 2#16 ∧ regsKept [] s t ∧
      t.index = s.index ∧ stackKept s t ∧ memKept s t ∧ displayKept s t ∧ recordsKept s t ∧ t.draws = s.draws) ∧
    decode (0xF#4 ++ x ++ 0x18#8) = some (.setSound x) ∧
    ∃ t, exec (.setSound x) s = .next t ∧ countedFrom s.delay (getV x s) t ∧ t.pc = s.pc + 2#16 ∧ regsKept [] s t ∧
      t.index = s.index ∧ stackKept s t ∧ memKept s t ∧ displayKept s t ∧ recordsKept s t ∧ t.draws = s.draws

/-- `45_timers_input.md` R223, R224: the level of key `Vx` decides the skip; an index above 0xF halts with `KeyRange` and `Vx`. -/
def Obligations.KeySkipsTestTheLevel : Prop :=
  ∀ (x : Nibble) (s : State),
    decode (0xE#4 ++ x ++ 0x9E#8) = some (.skipKeyPressed x) ∧ decode (0xE#4 ++ x ++ 0xA1#8) = some (.skipKeyNotPressed x) ∧
    ((getV x s).toNat ≤ 0xF → ∃ pressed, keyLevel (getV x s).toNat s = some pressed ∧
      (∃ t, exec (.skipKeyPressed x) s = .next t ∧ t.pc = s.pc + (if pressed = true then 4#16 else 2#16) ∧ onlyRegs [] s t) ∧
      ∃ t, exec (.skipKeyNotPressed x) s = .next t ∧ t.pc = s.pc + (if pressed = true then 2#16 else 4#16) ∧ onlyRegs [] s t) ∧
    (0xF < (getV x s).toNat →
      exec (.skipKeyPressed x) s = .next (halted .keyRange ((getV x s).setWidth 16) (some (encode (.skipKeyPressed x))) s) ∧
      exec (.skipKeyNotPressed x) s = .next (halted .keyRange ((getV x s).setWidth 16) (some (encode (.skipKeyNotPressed x))) s))

/-- `45_timers_input.md` R225: the lowest pressed key ends the wait; with none pressed the step changes nothing, and its tone is 0. -/
def Obligations.WaitKeyTakesTheLowestKeyOrStalls : Prop :=
  ∀ (x : Nibble) (s : State),
    decode (0xF#4 ++ x ++ 0x0A#8) = some (.waitKey x) ∧
    (∀ k, keyLevel k s = some true → (∀ j, j < k → keyLevel j s = some false) →
      ∃ t, exec (.waitKey x) s = .next t ∧ (getV x t).toNat = k ∧ t.pc = s.pc + 2#16 ∧ onlyRegs [x] s t) ∧
    ((∀ k, k < 16 → keyLevel k s = some false) → exec (.waitKey x) s = .next { s with tone := false })

/-! ## The host's operations -/

/-- `60_exceptions.md` R257, R258: a program of at most 3584 bytes lands at 0x200 on and nothing else changes; a longer one changes
nothing. -/
def Obligations.LoadPlacesTheProgramOrRejects : Prop :=
  ∀ (bytes : List Byte) (s : State),
    (bytes.length ≤ 3584 → ∃ m, hostOp (.load bytes) s = .next (.ok, { s with mem := m }) ∧
      (∀ i, i < bytes.length → bytes[i]? = some (memByte { s with mem := m } (0x200 + i))) ∧
      memKeptOutside 0x200 bytes.length s { s with mem := m }) ∧
    (3584 < bytes.length → hostOp (.load bytes) s = .next (.sizeError, s))

/-- `60_exceptions.md` R261, R262: `set_key` writes the one level it names; an index outside 0..15 is refused. -/
def Obligations.SetKeyWritesOneLevel : Prop :=
  ∀ (k : Nat) (pressed : Bool) (s : State),
    (k < 16 → ∃ ks, hostOp (.setKey k pressed) s = .next (.nothing, { s with keys := ks }) ∧ ks[k]? = some pressed ∧
      ∀ j, j ≠ k → ks[j]? = s.keys[j]?) ∧
    (16 ≤ k → hostOp (.setKey k pressed) s = .refused .keyIndexAbsent)

/-- `60_exceptions.md` R259, R263, R266: the framebuffer query clears the redraw flag it returns, so a second one returns it false; the
fault query and the unreadable load change nothing. -/
def Obligations.QueriesReportAndClearRedrawOnce : Prop :=
  ∀ s : State,
    hostOp .loadUnreadable s = .next (.ioError, s) ∧ hostOp .queryFaults s = .next (.faults s.invalid s.halt, s) ∧
    ∃ t, hostOp .queryFramebuffer s = .next (.framebuffer s.fb s.redraw, t) ∧ t = { s with redraw := false } ∧
      hostOp .queryFramebuffer t = .next (.framebuffer s.fb false, t)
end

