-- ==== Sys2Proof/Laws/State.lean ====
section
/-! SUPPORT. Field by field, what each update of the state leaves or writes: one lemma per field per update, so that no proof unfolds a record update. -/

namespace Sys2Proof.Machine

/-! ## `setV` -/

@[simp] theorem setV_v (r : Nibble) (b : Byte) (s : State) : (setV r b s).v = s.v.set r.toNat b r.isLt := rfl
@[simp] theorem setV_index (r : Nibble) (b : Byte) (s : State) : (setV r b s).index = s.index := rfl
@[simp] theorem setV_pc (r : Nibble) (b : Byte) (s : State) : (setV r b s).pc = s.pc := rfl
@[simp] theorem setV_sp (r : Nibble) (b : Byte) (s : State) : (setV r b s).sp = s.sp := rfl
@[simp] theorem setV_stack (r : Nibble) (b : Byte) (s : State) : (setV r b s).stack = s.stack := rfl
@[simp] theorem setV_delay (r : Nibble) (b : Byte) (s : State) : (setV r b s).delay = s.delay := rfl
@[simp] theorem setV_sound (r : Nibble) (b : Byte) (s : State) : (setV r b s).sound = s.sound := rfl
@[simp] theorem setV_mem (r : Nibble) (b : Byte) (s : State) : (setV r b s).mem = s.mem := rfl
@[simp] theorem setV_fb (r : Nibble) (b : Byte) (s : State) : (setV r b s).fb = s.fb := rfl
@[simp] theorem setV_redraw (r : Nibble) (b : Byte) (s : State) : (setV r b s).redraw = s.redraw := rfl
@[simp] theorem setV_keys (r : Nibble) (b : Byte) (s : State) : (setV r b s).keys = s.keys := rfl
@[simp] theorem setV_invalid (r : Nibble) (b : Byte) (s : State) : (setV r b s).invalid = s.invalid := rfl
@[simp] theorem setV_halt (r : Nibble) (b : Byte) (s : State) : (setV r b s).halt = s.halt := rfl
@[simp] theorem setV_tone (r : Nibble) (b : Byte) (s : State) : (setV r b s).tone = s.tone := rfl
@[simp] theorem setV_draws (r : Nibble) (b : Byte) (s : State) : (setV r b s).draws = s.draws := rfl

/-! ## `setVF` -/

@[simp] theorem setVF_v (b : Byte) (s : State) : (setVF b s).v = s.v.set regVF.toNat b regVF.isLt := rfl
@[simp] theorem setVF_index (b : Byte) (s : State) : (setVF b s).index = s.index := rfl
@[simp] theorem setVF_pc (b : Byte) (s : State) : (setVF b s).pc = s.pc := rfl
@[simp] theorem setVF_sp (b : Byte) (s : State) : (setVF b s).sp = s.sp := rfl
@[simp] theorem setVF_stack (b : Byte) (s : State) : (setVF b s).stack = s.stack := rfl
@[simp] theorem setVF_delay (b : Byte) (s : State) : (setVF b s).delay = s.delay := rfl
@[simp] theorem setVF_sound (b : Byte) (s : State) : (setVF b s).sound = s.sound := rfl
@[simp] theorem setVF_mem (b : Byte) (s : State) : (setVF b s).mem = s.mem := rfl
@[simp] theorem setVF_fb (b : Byte) (s : State) : (setVF b s).fb = s.fb := rfl
@[simp] theorem setVF_redraw (b : Byte) (s : State) : (setVF b s).redraw = s.redraw := rfl
@[simp] theorem setVF_keys (b : Byte) (s : State) : (setVF b s).keys = s.keys := rfl
@[simp] theorem setVF_invalid (b : Byte) (s : State) : (setVF b s).invalid = s.invalid := rfl
@[simp] theorem setVF_halt (b : Byte) (s : State) : (setVF b s).halt = s.halt := rfl
@[simp] theorem setVF_tone (b : Byte) (s : State) : (setVF b s).tone = s.tone := rfl
@[simp] theorem setVF_draws (b : Byte) (s : State) : (setVF b s).draws = s.draws := rfl

/-! ## `setIndexReg` -/

@[simp] theorem setIndexReg_v (w : Word) (s : State) : (setIndexReg w s).v = s.v := rfl
@[simp] theorem setIndexReg_index (w : Word) (s : State) : (setIndexReg w s).index = w := rfl
@[simp] theorem setIndexReg_pc (w : Word) (s : State) : (setIndexReg w s).pc = s.pc := rfl
@[simp] theorem setIndexReg_sp (w : Word) (s : State) : (setIndexReg w s).sp = s.sp := rfl
@[simp] theorem setIndexReg_stack (w : Word) (s : State) : (setIndexReg w s).stack = s.stack := rfl
@[simp] theorem setIndexReg_delay (w : Word) (s : State) : (setIndexReg w s).delay = s.delay := rfl
@[simp] theorem setIndexReg_sound (w : Word) (s : State) : (setIndexReg w s).sound = s.sound := rfl
@[simp] theorem setIndexReg_mem (w : Word) (s : State) : (setIndexReg w s).mem = s.mem := rfl
@[simp] theorem setIndexReg_fb (w : Word) (s : State) : (setIndexReg w s).fb = s.fb := rfl
@[simp] theorem setIndexReg_redraw (w : Word) (s : State) : (setIndexReg w s).redraw = s.redraw := rfl
@[simp] theorem setIndexReg_keys (w : Word) (s : State) : (setIndexReg w s).keys = s.keys := rfl
@[simp] theorem setIndexReg_invalid (w : Word) (s : State) : (setIndexReg w s).invalid = s.invalid := rfl
@[simp] theorem setIndexReg_halt (w : Word) (s : State) : (setIndexReg w s).halt = s.halt := rfl
@[simp] theorem setIndexReg_tone (w : Word) (s : State) : (setIndexReg w s).tone = s.tone := rfl
@[simp] theorem setIndexReg_draws (w : Word) (s : State) : (setIndexReg w s).draws = s.draws := rfl

/-! ## `noTone` -/

@[simp] theorem noTone_v (s : State) : (noTone s).v = s.v := rfl
@[simp] theorem noTone_index (s : State) : (noTone s).index = s.index := rfl
@[simp] theorem noTone_pc (s : State) : (noTone s).pc = s.pc := rfl
@[simp] theorem noTone_sp (s : State) : (noTone s).sp = s.sp := rfl
@[simp] theorem noTone_stack (s : State) : (noTone s).stack = s.stack := rfl
@[simp] theorem noTone_delay (s : State) : (noTone s).delay = s.delay := rfl
@[simp] theorem noTone_sound (s : State) : (noTone s).sound = s.sound := rfl
@[simp] theorem noTone_mem (s : State) : (noTone s).mem = s.mem := rfl
@[simp] theorem noTone_fb (s : State) : (noTone s).fb = s.fb := rfl
@[simp] theorem noTone_redraw (s : State) : (noTone s).redraw = s.redraw := rfl
@[simp] theorem noTone_keys (s : State) : (noTone s).keys = s.keys := rfl
@[simp] theorem noTone_invalid (s : State) : (noTone s).invalid = s.invalid := rfl
@[simp] theorem noTone_halt (s : State) : (noTone s).halt = s.halt := rfl
@[simp] theorem noTone_tone (s : State) : (noTone s).tone = false := rfl
@[simp] theorem noTone_draws (s : State) : (noTone s).draws = s.draws := rfl

/-! ## `timerUpdate` -/

@[simp] theorem timerUpdate_v (s : State) : (timerUpdate s).v = s.v := rfl
@[simp] theorem timerUpdate_index (s : State) : (timerUpdate s).index = s.index := rfl
@[simp] theorem timerUpdate_pc (s : State) : (timerUpdate s).pc = s.pc := rfl
@[simp] theorem timerUpdate_sp (s : State) : (timerUpdate s).sp = s.sp := rfl
@[simp] theorem timerUpdate_stack (s : State) : (timerUpdate s).stack = s.stack := rfl
@[simp] theorem timerUpdate_delay (s : State) : (timerUpdate s).delay = countDown s.delay := rfl
@[simp] theorem timerUpdate_sound (s : State) : (timerUpdate s).sound = countDown s.sound := rfl
@[simp] theorem timerUpdate_mem (s : State) : (timerUpdate s).mem = s.mem := rfl
@[simp] theorem timerUpdate_fb (s : State) : (timerUpdate s).fb = s.fb := rfl
@[simp] theorem timerUpdate_redraw (s : State) : (timerUpdate s).redraw = s.redraw := rfl
@[simp] theorem timerUpdate_keys (s : State) : (timerUpdate s).keys = s.keys := rfl
@[simp] theorem timerUpdate_invalid (s : State) : (timerUpdate s).invalid = s.invalid := rfl
@[simp] theorem timerUpdate_halt (s : State) : (timerUpdate s).halt = s.halt := rfl
@[simp] theorem timerUpdate_tone (s : State) : (timerUpdate s).tone = (s.sound == 1#8) := rfl
@[simp] theorem timerUpdate_draws (s : State) : (timerUpdate s).draws = s.draws := rfl

/-! ## `updatePc` changes the pc alone -/

@[simp] theorem updatePc_v (o : FormOutcome) (s : State) : (updatePc o s).v = s.v := by cases o <;> rfl
@[simp] theorem updatePc_index (o : FormOutcome) (s : State) : (updatePc o s).index = s.index := by cases o <;> rfl
@[simp] theorem updatePc_sp (o : FormOutcome) (s : State) : (updatePc o s).sp = s.sp := by cases o <;> rfl
@[simp] theorem updatePc_stack (o : FormOutcome) (s : State) : (updatePc o s).stack = s.stack := by cases o <;> rfl
@[simp] theorem updatePc_delay (o : FormOutcome) (s : State) : (updatePc o s).delay = s.delay := by cases o <;> rfl
@[simp] theorem updatePc_sound (o : FormOutcome) (s : State) : (updatePc o s).sound = s.sound := by cases o <;> rfl
@[simp] theorem updatePc_mem (o : FormOutcome) (s : State) : (updatePc o s).mem = s.mem := by cases o <;> rfl
@[simp] theorem updatePc_fb (o : FormOutcome) (s : State) : (updatePc o s).fb = s.fb := by cases o <;> rfl
@[simp] theorem updatePc_redraw (o : FormOutcome) (s : State) : (updatePc o s).redraw = s.redraw := by cases o <;> rfl
@[simp] theorem updatePc_keys (o : FormOutcome) (s : State) : (updatePc o s).keys = s.keys := by cases o <;> rfl
@[simp] theorem updatePc_invalid (o : FormOutcome) (s : State) : (updatePc o s).invalid = s.invalid := by cases o <;> rfl
@[simp] theorem updatePc_halt (o : FormOutcome) (s : State) : (updatePc o s).halt = s.halt := by cases o <;> rfl
@[simp] theorem updatePc_tone (o : FormOutcome) (s : State) : (updatePc o s).tone = s.tone := by cases o <;> rfl
@[simp] theorem updatePc_draws (o : FormOutcome) (s : State) : (updatePc o s).draws = s.draws := by cases o <;> rfl
@[simp] theorem updatePc_next (s : State) : (updatePc .next s).pc = s.pc + 2#16 := rfl
@[simp] theorem updatePc_skip (c : Bool) (s : State) : (updatePc (.skip c) s).pc = s.pc + if c then 4#16 else 2#16 := rfl
@[simp] theorem updatePc_jump (w : Word) (s : State) : (updatePc (.jump w) s).pc = w := rfl
@[simp] theorem updatePc_stallWait (s : State) : updatePc .stallWait s = s := rfl
@[simp] theorem updatePc_stallInvalid (s : State) : updatePc .stallInvalid s = s := rfl

/-! ## `finish` changes the pc, the timers and the tone alone -/

@[simp] theorem finish_v (o : FormOutcome) (s : State) : (finish o s).v = s.v := by cases o <;> rfl
@[simp] theorem finish_index (o : FormOutcome) (s : State) : (finish o s).index = s.index := by cases o <;> rfl
@[simp] theorem finish_sp (o : FormOutcome) (s : State) : (finish o s).sp = s.sp := by cases o <;> rfl
@[simp] theorem finish_stack (o : FormOutcome) (s : State) : (finish o s).stack = s.stack := by cases o <;> rfl
@[simp] theorem finish_mem (o : FormOutcome) (s : State) : (finish o s).mem = s.mem := by cases o <;> rfl
@[simp] theorem finish_fb (o : FormOutcome) (s : State) : (finish o s).fb = s.fb := by cases o <;> rfl
@[simp] theorem finish_redraw (o : FormOutcome) (s : State) : (finish o s).redraw = s.redraw := by cases o <;> rfl
@[simp] theorem finish_keys (o : FormOutcome) (s : State) : (finish o s).keys = s.keys := by cases o <;> rfl
@[simp] theorem finish_invalid (o : FormOutcome) (s : State) : (finish o s).invalid = s.invalid := by cases o <;> rfl
@[simp] theorem finish_halt (o : FormOutcome) (s : State) : (finish o s).halt = s.halt := by cases o <;> rfl
@[simp] theorem finish_draws (o : FormOutcome) (s : State) : (finish o s).draws = s.draws := by cases o <;> rfl
@[simp] theorem finish_pc (o : FormOutcome) (s : State) : (finish o s).pc = (updatePc o s).pc := by cases o <;> rfl
@[simp] theorem finish_next (s : State) : finish .next s = timerUpdate (updatePc .next s) := rfl
@[simp] theorem finish_skip (c : Bool) (s : State) : finish (.skip c) s = timerUpdate (updatePc (.skip c) s) := rfl
@[simp] theorem finish_jump (w : Word) (s : State) : finish (.jump w) s = timerUpdate (updatePc (.jump w) s) := rfl
@[simp] theorem finish_stallWait (s : State) : finish .stallWait s = noTone s := rfl
@[simp] theorem finish_stallInvalid (s : State) : finish .stallInvalid s = timerUpdate s := rfl

/-! ## `raiseFault` writes the halt record and the tone alone -/

@[simp] theorem raiseFault_v (k : HaltKind) (n : Word) (w : Option Word) (s : State) : (raiseFault k n w s).v = s.v := rfl
@[simp] theorem raiseFault_index (k : HaltKind) (n : Word) (w : Option Word) (s : State) : (raiseFault k n w s).index = s.index := rfl
@[simp] theorem raiseFault_pc (k : HaltKind) (n : Word) (w : Option Word) (s : State) : (raiseFault k n w s).pc = s.pc := rfl
@[simp] theorem raiseFault_sp (k : HaltKind) (n : Word) (w : Option Word) (s : State) : (raiseFault k n w s).sp = s.sp := rfl
@[simp] theorem raiseFault_stack (k : HaltKind) (n : Word) (w : Option Word) (s : State) : (raiseFault k n w s).stack = s.stack := rfl
@[simp] theorem raiseFault_delay (k : HaltKind) (n : Word) (w : Option Word) (s : State) : (raiseFault k n w s).delay = s.delay := rfl
@[simp] theorem raiseFault_sound (k : HaltKind) (n : Word) (w : Option Word) (s : State) : (raiseFault k n w s).sound = s.sound := rfl
@[simp] theorem raiseFault_mem (k : HaltKind) (n : Word) (w : Option Word) (s : State) : (raiseFault k n w s).mem = s.mem := rfl
@[simp] theorem raiseFault_fb (k : HaltKind) (n : Word) (w : Option Word) (s : State) : (raiseFault k n w s).fb = s.fb := rfl
@[simp] theorem raiseFault_redraw (k : HaltKind) (n : Word) (w : Option Word) (s : State) : (raiseFault k n w s).redraw = s.redraw := rfl
@[simp] theorem raiseFault_keys (k : HaltKind) (n : Word) (w : Option Word) (s : State) : (raiseFault k n w s).keys = s.keys := rfl
@[simp] theorem raiseFault_invalid (k : HaltKind) (n : Word) (w : Option Word) (s : State) : (raiseFault k n w s).invalid = s.invalid := rfl
@[simp] theorem raiseFault_halt (k : HaltKind) (n : Word) (w : Option Word) (s : State) : (raiseFault k n w s).halt = some { kind := k, pc := s.pc, word := w, info := n } := rfl
@[simp] theorem raiseFault_tone (k : HaltKind) (n : Word) (w : Option Word) (s : State) : (raiseFault k n w s).tone = false := rfl
@[simp] theorem raiseFault_draws (k : HaltKind) (n : Word) (w : Option Word) (s : State) : (raiseFault k n w s).draws = s.draws := rfl

/-! ## `recordInvalid` writes the invalid record alone -/

@[simp] theorem recordInvalid_v (w : Word) (s : State) : (recordInvalid w s).v = s.v := by unfold recordInvalid; split <;> rfl
@[simp] theorem recordInvalid_index (w : Word) (s : State) : (recordInvalid w s).index = s.index := by unfold recordInvalid; split <;> rfl
@[simp] theorem recordInvalid_pc (w : Word) (s : State) : (recordInvalid w s).pc = s.pc := by unfold recordInvalid; split <;> rfl
@[simp] theorem recordInvalid_sp (w : Word) (s : State) : (recordInvalid w s).sp = s.sp := by unfold recordInvalid; split <;> rfl
@[simp] theorem recordInvalid_stack (w : Word) (s : State) : (recordInvalid w s).stack = s.stack := by unfold recordInvalid; split <;> rfl
@[simp] theorem recordInvalid_delay (w : Word) (s : State) : (recordInvalid w s).delay = s.delay := by unfold recordInvalid; split <;> rfl
@[simp] theorem recordInvalid_sound (w : Word) (s : State) : (recordInvalid w s).sound = s.sound := by unfold recordInvalid; split <;> rfl
@[simp] theorem recordInvalid_mem (w : Word) (s : State) : (recordInvalid w s).mem = s.mem := by unfold recordInvalid; split <;> rfl
@[simp] theorem recordInvalid_fb (w : Word) (s : State) : (recordInvalid w s).fb = s.fb := by unfold recordInvalid; split <;> rfl
@[simp] theorem recordInvalid_redraw (w : Word) (s : State) : (recordInvalid w s).redraw = s.redraw := by unfold recordInvalid; split <;> rfl
@[simp] theorem recordInvalid_keys (w : Word) (s : State) : (recordInvalid w s).keys = s.keys := by unfold recordInvalid; split <;> rfl
@[simp] theorem recordInvalid_halt (w : Word) (s : State) : (recordInvalid w s).halt = s.halt := by unfold recordInvalid; split <;> rfl
@[simp] theorem recordInvalid_tone (w : Word) (s : State) : (recordInvalid w s).tone = s.tone := by unfold recordInvalid; split <;> rfl
@[simp] theorem recordInvalid_draws (w : Word) (s : State) : (recordInvalid w s).draws = s.draws := by unfold recordInvalid; split <;> rfl

theorem recordInvalid_invalid (w : Word) (s : State) :
    (recordInvalid w s).invalid = some (s.invalid.getD { pc := s.pc, word := w }) := by
  unfold recordInvalid; split <;> simp_all

/-! ## Registers -/

/-- What a register holds after a register is written. -/
theorem getV_setV (r q : Nibble) (b : Byte) (s : State) : getV r (setV q b s) = if r = q then b else getV r s := by
  simp only [getV, setV, Vector.getElem_set, ← BitVec.toNat_inj, eq_comm]

@[simp] theorem getV_setV_self (r : Nibble) (b : Byte) (s : State) : getV r (setV r b s) = b := by simp [getV_setV]

theorem getV_setV_ne {r q : Nibble} (h : r ≠ q) (b : Byte) (s : State) : getV r (setV q b s) = getV r s := by
  simp [getV_setV, h]

/-- A register depends on the register file alone. -/
theorem getV_congr {s t : State} (h : t.v = s.v) (r : Nibble) : getV r t = getV r s := by simp [getV, h]

@[simp] theorem getV_setIndexReg (r : Nibble) (w : Word) (s : State) : getV r (setIndexReg w s) = getV r s := rfl
@[simp] theorem getV_noTone (r : Nibble) (s : State) : getV r (noTone s) = getV r s := rfl
@[simp] theorem getV_timerUpdate (r : Nibble) (s : State) : getV r (timerUpdate s) = getV r s := rfl
@[simp] theorem getV_updatePc (r : Nibble) (o : FormOutcome) (s : State) : getV r (updatePc o s) = getV r s := by
  cases o <;> rfl
@[simp] theorem getV_finish (r : Nibble) (o : FormOutcome) (s : State) : getV r (finish o s) = getV r s := by
  cases o <;> rfl
@[simp] theorem getV_raiseFault (r : Nibble) (k : HaltKind) (n : Word) (w : Option Word) (s : State) :
    getV r (raiseFault k n w s) = getV r s := rfl

/-! ## Memory bytes depend on the memory alone -/

theorem memByte_congr {s t : State} (h : t.mem = s.mem) (a : Nat) : memByte t a = memByte s a := by simp [memByte, h]

/-! ## The timers -/

/-- `countDown` is a decrement with its floor at 0. -/
theorem countDown_toNat (t : Byte) : (countDown t).toNat = t.toNat - 1 := by
  unfold countDown
  split
  · simp_all
  · rename_i h
    have : t.toNat ≠ 0 := fun h0 => h (BitVec.eq_of_toNat_eq (by simpa using h0))
    rw [BitVec.toNat_sub_of_le (by simp [BitVec.le_def]; omega)]
    simp

end Sys2Proof.Machine
end

