-- ==== Sys2Proof/Laws/Decode.lean ====
section
/-! SUPPORT. The fields of a word and the concatenation of fields (spec/30_encoding.md R72, R80), read in both directions. -/

namespace Sys2Proof

/-! ## A word is its fields -/

theorem word_eq_fields_XYN (w : Word) : wordGroup w ++ fieldX w ++ fieldY w ++ fieldN w = w := by
  apply BitVec.eq_of_getLsbD_eq
  intro i hi
  simp only [wordGroup, fieldX, fieldY, fieldN, BitVec.getLsbD_append, BitVec.getLsbD_extractLsb']
  interval_cases i <;> simp

theorem word_eq_fields_XK (w : Word) : wordGroup w ++ fieldX w ++ fieldKK w = w := by
  apply BitVec.eq_of_getLsbD_eq
  intro i hi
  simp only [wordGroup, fieldX, fieldKK, BitVec.getLsbD_append, BitVec.getLsbD_extractLsb']
  interval_cases i <;> simp

theorem word_eq_fields_A (w : Word) : wordGroup w ++ fieldNNN w = w := by
  apply BitVec.eq_of_getLsbD_eq
  intro i hi
  simp only [wordGroup, fieldNNN, BitVec.getLsbD_append, BitVec.getLsbD_extractLsb']
  interval_cases i <;> simp

/-! ## The fields of a concatenation -/

theorem fields_of_XYN (g x y n : Nibble) :
    wordGroup (g ++ x ++ y ++ n) = g ∧ fieldX (g ++ x ++ y ++ n) = x ∧ fieldY (g ++ x ++ y ++ n) = y ∧
      fieldN (g ++ x ++ y ++ n) = n := by
  refine ⟨?_, ?_, ?_, ?_⟩ <;> apply BitVec.eq_of_getLsbD_eq <;> intro i hi <;>
    simp only [wordGroup, fieldX, fieldY, fieldN, BitVec.getLsbD_append, BitVec.getLsbD_extractLsb'] <;>
    interval_cases i <;> simp

theorem fields_of_XK (g x : Nibble) (kk : Byte) :
    wordGroup (g ++ x ++ kk) = g ∧ fieldX (g ++ x ++ kk) = x ∧ fieldKK (g ++ x ++ kk) = kk := by
  refine ⟨?_, ?_, ?_⟩ <;> apply BitVec.eq_of_getLsbD_eq <;> intro i hi <;>
    simp only [wordGroup, fieldX, fieldKK, BitVec.getLsbD_append, BitVec.getLsbD_extractLsb'] <;>
    interval_cases i <;> simp

theorem fields_of_A (g : Nibble) (nnn : Addr) : wordGroup (g ++ nnn) = g ∧ fieldNNN (g ++ nnn) = nnn := by
  refine ⟨?_, ?_⟩ <;> apply BitVec.eq_of_getLsbD_eq <;> intro i hi <;>
    simp only [wordGroup, fieldNNN, BitVec.getLsbD_append, BitVec.getLsbD_extractLsb'] <;>
    interval_cases i <;> simp

/-! ## The masks of the opcode table's rows, on a concatenation of fields -/

theorem mask_A (g : Nibble) (nnn : Addr) : (g ++ nnn) &&& 0xF000#16 = g ++ 0#12 := by
  apply BitVec.eq_of_getLsbD_eq
  intro i hi
  simp only [BitVec.getLsbD_append, BitVec.getLsbD_and, BitVec.getLsbD_ofNat]
  interval_cases i <;> simp <;> intro _ <;> decide

theorem mask_XK (g x : Nibble) (kk : Byte) : (g ++ x ++ kk) &&& 0xF000#16 = g ++ 0#12 := by
  apply BitVec.eq_of_getLsbD_eq
  intro i hi
  simp only [BitVec.getLsbD_append, BitVec.getLsbD_and, BitVec.getLsbD_ofNat]
  interval_cases i <;> simp <;> intro _ <;> decide

theorem mask_XYN (g x y n : Nibble) : (g ++ x ++ y ++ n) &&& 0xF000#16 = g ++ 0#12 := by
  apply BitVec.eq_of_getLsbD_eq
  intro i hi
  simp only [BitVec.getLsbD_append, BitVec.getLsbD_and, BitVec.getLsbD_ofNat]
  interval_cases i <;> simp <;> intro _ <;> decide

theorem mask_XY (g x y n : Nibble) : (g ++ x ++ y ++ n) &&& 0xF00F#16 = g ++ 0#8 ++ n := by
  apply BitVec.eq_of_getLsbD_eq
  intro i hi
  simp only [BitVec.getLsbD_append, BitVec.getLsbD_and, BitVec.getLsbD_ofNat]
  interval_cases i <;> simp <;> intro _ <;> decide

theorem mask_X (g x : Nibble) (kk : Byte) : (g ++ x ++ kk) &&& 0xF0FF#16 = g ++ 0#4 ++ kk := by
  apply BitVec.eq_of_getLsbD_eq
  intro i hi
  simp only [BitVec.getLsbD_append, BitVec.getLsbD_and, BitVec.getLsbD_ofNat]
  interval_cases i <;> simp <;> intro _ <;> decide

/-- Two bytes in memory order and back. -/
theorem decodeBytes_wordBytes (w : Word) (rest : List Byte) :
    decodeBytes (wordBytes w ++ rest) = match decode w with | some i => .form i rest | none => .unrecognized w rest := by
  have hw : ((w.extractLsb' 8 8 ++ w.extractLsb' 0 8 : BitVec (8 + 8)) : Word) = w := by
    apply BitVec.eq_of_getLsbD_eq
    intro i hi
    simp only [BitVec.getLsbD_append, BitVec.getLsbD_extractLsb']
    interval_cases i <;> simp
  cases h : decode w <;> simp only [wordBytes, List.cons_append, List.nil_append, decodeBytes, hw, h]

/-- The decoder asked with the table's number of a word answers what `decode` gives on that word. -/
theorem decodeTableWord_eq (nbits w : Nat) : decodeTableWord nbits w = decode (tableWord nbits w) := by
  have h := decodeBytes_wordBytes (tableWord nbits w) []
  rw [List.append_nil] at h
  simp only [decodeTableWord, h]
  cases decode (tableWord nbits w) <;> rfl

end Sys2Proof
end

