-- ==== Sys2Proof/Laws/Display.lean ====
section
/-! SUPPORT. What drawing a sprite does to each cell and to the collision (spec/44_display.md R202 to R205): the cells its 1-bits land on toggle, each once. -/

namespace Sys2Proof.Machine

/-- A cell after a cell is written. -/
theorem fbGet_fbSet (fb : FrameBuffer) (r r' : Fin 32) (c c' : Fin 64) (b : Bool) :
    fbGet (fbSet fb r c b) r' c' = if r' = r ∧ c' = c then b else fbGet fb r' c' := by
  simp only [fbGet, fbSet, Vector.getElem_set]
  by_cases hr : r' = r
  · subst hr
    by_cases hc : c' = c
    · subst hc; simp
    · simp [hc, show ¬ c.val = c'.val from fun h => hc (Fin.ext h.symm)]
  · simp [hr, show ¬ r.val = r'.val from fun h => hr (Fin.ext h.symm)]

/-- A cleared framebuffer has no cell set. -/
@[simp] theorem fbGet_fbClear (r : Fin 32) (c : Fin 64) : fbGet fbClear r c = false := by simp [fbGet, fbClear]

/-- Framebuffers with equal cells are equal. -/
theorem fb_ext {a b : FrameBuffer} (h : ∀ r c, fbGet a r c = fbGet b r c) : a = b := by
  apply Vector.ext
  intro r hr
  apply Vector.ext
  intro c hc
  exact h ⟨r, hr⟩ ⟨c, hc⟩

/-- One drawing took a blit to another: the cells hit toggled, the others stayed, and a hit cell that was 1 is a collision. -/
def Toggles (hit : Fin 32 → Fin 64 → Prop) (b b' : Blit) : Prop :=
  (∀ r c, hit r c → fbGet b'.fb r c = !fbGet b.fb r c) ∧
    (∀ r c, ¬ hit r c → fbGet b'.fb r c = fbGet b.fb r c) ∧
    (b'.collision = true ↔ b.collision = true ∨ ∃ r c, hit r c ∧ fbGet b.fb r c = true)

theorem toggles_nothing (b : Blit) : Toggles (fun _ _ => False) b b := by simp [Toggles]

theorem toggles_pixel (r : Fin 32) (c : Fin 64) (b : Blit) :
    Toggles (fun r' c' => r' = r ∧ c' = c) b (plotPixel r c b) := by
  refine ⟨?_, ?_, ?_⟩
  · rintro r' c' ⟨rfl, rfl⟩; simp [plotPixel, fbGet_fbSet]
  · intro r' c' h; simp only [plotPixel, fbGet_fbSet, if_neg h]
  · simp [plotPixel]

/-- Two drawings one after the other, on different cells, are one drawing. -/
theorem toggles_trans {h1 h2 h : Fin 32 → Fin 64 → Prop} {b b' b'' : Blit} (t1 : Toggles h1 b b') (t2 : Toggles h2 b' b'')
    (disjoint : ∀ r c, h1 r c → ¬ h2 r c) (union : ∀ r c, h r c ↔ h1 r c ∨ h2 r c) : Toggles h b b'' := by
  obtain ⟨a1, a2, a3⟩ := t1
  obtain ⟨c1, c2, c3⟩ := t2
  refine ⟨fun r c hh => ?_, fun r c hh => ?_, ?_⟩
  · rcases (union r c).1 hh with hh | hh
    · rw [c2 r c (disjoint r c hh), a1 r c hh]
    · rw [c1 r c hh, a2 r c fun h1 => disjoint r c h1 hh]
  · rw [union, not_or] at hh
    rw [c2 r c hh.2, a2 r c hh.1]
  · rw [c3, a3, or_assoc]
    refine or_congr_right ⟨?_, ?_⟩
    · rintro (⟨r, c, hh, hb⟩ | ⟨r, c, hh, hb⟩)
      · exact ⟨r, c, (union r c).2 (.inl hh), hb⟩
      · exact ⟨r, c, (union r c).2 (.inr hh), by rwa [a2 r c fun h1 => disjoint r c h1 hh] at hb⟩
    · rintro ⟨r, c, hh, hb⟩
      rcases (union r c).1 hh with hh | hh
      · exact .inl ⟨r, c, hh, hb⟩
      · exact .inr ⟨r, c, hh, by rwa [a2 r c fun h1 => disjoint r c h1 hh]⟩

/-- Pixels at different columns of one row, drawn in order, toggle the cells of their 1-bits. -/
theorem toggles_pixels (r : Fin 32) (cx row : Byte) (js : List Nat) (b : Blit)
    (hjs : js.Pairwise fun j k => spriteCol cx j ≠ spriteCol cx k) :
    Toggles (fun r' c' => r' = r ∧ ∃ j ∈ js, spriteCol cx j = c' ∧ spritePixel row j = true) b (drawPixels r cx row js b) := by
  induction js generalizing b with
  | nil => simp [drawPixels, Toggles]
  | cons j js ih =>
    rw [List.pairwise_cons] at hjs
    rw [drawPixels]
    split
    · rename_i hp
      refine toggles_trans (toggles_pixel r (spriteCol cx j) b) (ih _ hjs.2) ?_ ?_
      · rintro r' c' ⟨rfl, rfl⟩ ⟨-, k, hk, hc, -⟩
        exact hjs.1 k hk hc.symm
      · intro r' c'
        simp only [List.mem_cons, exists_eq_or_imp, hp, and_true, ← and_or_left]
        exact ⟨fun h => ⟨h.1, h.2.imp_left Eq.symm⟩, fun h => ⟨h.1, h.2.imp_left Eq.symm⟩⟩
    · rename_i hp
      refine toggles_trans (toggles_nothing b) (ih _ hjs.2) (by simp) ?_
      intro r' c'
      simp [hp]

theorem spriteCol_pairwise (cx : Byte) : (List.range 8).Pairwise fun j k => spriteCol cx j ≠ spriteCol cx k := by
  refine List.Pairwise.imp_of_mem ?_ (List.pairwise_lt_range (n := 8))
  intro j k hj hk hlt h
  simp only [List.mem_range] at hj hk
  have := congrArg Fin.val h
  simp only [spriteCol, Fin.val_ofNat] at this
  omega

/-- The rows of a sprite of at most 32 rows, drawn from row offset `i` on, toggle the cells of their 1-bits. -/
theorem toggles_rows (cx cy : Byte) (i : Nat) (rows : List Byte) (b : Blit) (hn : rows.length ≤ 32) :
    Toggles (fun r' c' => ∃ k row, rows[k]? = some row ∧ spriteRow cy (i + k) = r' ∧
      ∃ j ∈ List.range 8, spriteCol cx j = c' ∧ spritePixel row j = true) b (drawRows cx cy i rows b) := by
  induction rows generalizing i b with
  | nil => simp [drawRows, Toggles]
  | cons row rows ih =>
    simp only [List.length_cons] at hn
    refine toggles_trans (toggles_pixels (spriteRow cy i) cx row _ b (spriteCol_pairwise cx)) (ih (i + 1) _ (by omega)) ?_ ?_
    · rintro r' c' ⟨rfl, -⟩ ⟨k, row', hk, hr, -⟩
      have hlt := (List.getElem?_eq_some_iff.1 hk).1
      have := congrArg Fin.val hr
      simp only [spriteRow, Fin.val_ofNat] at this
      omega
    · intro r' c'
      constructor
      · rintro ⟨k, row', hk, hr, hj⟩
        cases k with
        | zero => simp only [List.getElem?_cons_zero, Option.some.injEq] at hk; subst hk; exact .inl ⟨hr.symm, hj⟩
        | succ k => exact .inr ⟨k, row', by simpa using hk, by rw [← hr]; congr 1; omega, hj⟩
      · rintro (⟨hr, hj⟩ | ⟨k, row', hk, hr, hj⟩)
        · exact ⟨0, row, rfl, hr.symm, hj⟩
        · exact ⟨k + 1, row', by simpa using hk, by rw [← hr]; congr 1; omega, hj⟩

end Sys2Proof.Machine
end

