-- ==== Sys2Proof/Laws/Memory.lean ====
section
/-! SUPPORT. What the memory operations do to one byte, and that they keep the canonical form. -/

namespace Sys2Proof.Machine

/-! ## One byte -/

theorem cellRead_cons (b : Nat) (w : Byte) (m : Memory) (a : Nat) :
    cellRead ((b, w) :: m) a = if a = b then w else cellRead m a := rfl

/-- Erasing an address leaves it at its initial content and every other address as it was. -/
theorem cellRead_cellErase (m : Memory) (a b : Nat) :
    cellRead (cellErase m a) b = if b = a then unlisted a else cellRead m b := by
  induction m with
  | nil => simp only [cellErase, List.filter_nil, cellRead]; split <;> simp_all
  | cons c m ih =>
    obtain ⟨k, w⟩ := c
    simp only [cellErase] at ih ⊢
    by_cases hk : k = a
    · subst hk
      simp only [List.filter_cons, bne_self_eq_false, Bool.false_eq_true, if_false, ih, cellRead_cons]
      split <;> simp_all
    · simp only [List.filter_cons, bne_iff_ne, ne_eq, hk, not_false_eq_true, if_true, cellRead_cons, ih]
      split <;> simp_all

/-- Inserting an entry for an address that has none gives it its value and leaves every other address as it was. -/
theorem cellRead_cellInsert {m : Memory} {a : Nat} (h : ∀ c ∈ m, c.1 ≠ a) (v : Byte) (b : Nat) :
    cellRead (cellInsert m a v) b = if b = a then v else cellRead m b := by
  induction m with
  | nil => simp [cellInsert, cellRead]
  | cons c m ih =>
    obtain ⟨k, w⟩ := c
    have hk : k ≠ a := h (k, w) (by simp)
    have ih := ih fun c hc => h c (by simp [hc])
    simp only [cellInsert]
    split
    · simp [cellRead_cons]
    · simp only [cellRead_cons, ih]
      split <;> simp_all

theorem cellErase_ne (m : Memory) (a : Nat) : ∀ c ∈ cellErase m a, c.1 ≠ a := by
  intro c hc; simpa [cellErase] using (List.mem_filter.1 hc).2

/-- Read after write: the written address holds the written byte, every other address what it held. -/
theorem cellRead_cellWrite (m : Memory) (a : Nat) (v : Byte) (b : Nat) :
    cellRead (cellWrite m a v) b = if b = a then v else cellRead m b := by
  unfold cellWrite
  split
  · simp_all [cellRead_cellErase]
  · rw [cellRead_cellInsert (cellErase_ne m a), cellRead_cellErase]; split <;> simp_all

/-! ## A block of bytes -/

/-- What an address holds after a block of writes. -/
theorem cellRead_cellWrites (m : Memory) (a : Nat) (bs : List Byte) (b : Nat) :
    cellRead (cellWrites m a bs) b = if a ≤ b then (bs[b - a]?).getD (cellRead m b) else cellRead m b := by
  induction bs generalizing m a with
  | nil => simp [cellWrites]
  | cons v bs ih =>
    rw [cellWrites, ih, cellRead_cellWrite]
    rcases Nat.lt_trichotomy b a with hb | hb | hb
    · simp [show ¬ a + 1 ≤ b by omega, show ¬ a ≤ b by omega, show b ≠ a by omega]
    · subst hb; simp
    · have h1 : b - a = (b - (a + 1)) + 1 := by omega
      simp [show a + 1 ≤ b by omega, show a ≤ b by omega, show b ≠ a by omega, h1]

@[simp] theorem length_cellReads (m : Memory) (a n : Nat) : (cellReads m a n).length = n := by
  induction n generalizing a with
  | zero => rfl
  | succ n ih => simp [cellReads, ih]

/-- The k-th byte of a block of reads. -/
theorem getElem?_cellReads (m : Memory) (a n k : Nat) (h : k < n) : (cellReads m a n)[k]? = some (cellRead m (a + k)) := by
  induction n generalizing a k with
  | zero => omega
  | succ n ih =>
    cases k with
    | zero => rfl
    | succ k => simp only [cellReads, List.getElem?_cons_succ]; rw [ih (a + 1) k (by omega)]; congr 2; omega

theorem memFits_iff (a n : Nat) : memFits a n = true ↔ n = 0 ∨ a + (n - 1) ≤ 0xFFF := by
  rw [memFits, Bool.or_eq_true, decide_eq_true_eq, beq_iff_eq, memTop]

/-- A block store either does not fit and gives nothing, or writes its bytes and nothing else. -/
theorem storeBlock_cases (a : Nat) (bs : List Byte) (s : State) :
    (memFits a bs.length = false ∧ storeBlock a bs s = none) ∨
      (memFits a bs.length = true ∧ storeBlock a bs s = some { s with mem := cellWrites s.mem a bs }) := by
  unfold storeBlock; cases memFits a bs.length <;> simp

/-- A block load either does not fit and gives nothing, or reads its bytes. -/
theorem loadBlock_cases (a n : Nat) (s : State) :
    (memFits a n = false ∧ loadBlock a n s = none) ∨
      (memFits a n = true ∧ loadBlock a n s = some (cellReads s.mem a n)) := by
  unfold loadBlock; cases memFits a n <;> simp

/-! ## The canonical form -/

theorem wfFrom_mono {lo lo' : Nat} {m : Memory} (h : Memory.wfFrom lo m = true) (hl : lo' ≤ lo) : Memory.wfFrom lo' m = true := by
  cases m with
  | nil => rfl
  | cons c m => 
    obtain ⟨k, w⟩ := c
    simp only [Memory.wfFrom, Bool.and_eq_true, decide_eq_true_eq] at h ⊢
    exact ⟨⟨⟨by omega, h.1.1.2⟩, h.1.2⟩, h.2⟩

theorem cellErase_wfFrom (m : Memory) (a lo : Nat) (h : Memory.wfFrom lo m = true) : Memory.wfFrom lo (cellErase m a) = true := by
  induction m generalizing lo with
  | nil => rfl
  | cons c m ih =>
    obtain ⟨k, w⟩ := c
    simp only [Memory.wfFrom, Bool.and_eq_true, decide_eq_true_eq] at h
    have ih' := ih (k + 1) h.2
    simp only [cellErase, List.filter_cons] at ih' ⊢
    split
    · simp only [Memory.wfFrom, Bool.and_eq_true, decide_eq_true_eq]; exact ⟨h.1, ih'⟩
    · exact wfFrom_mono ih' (by omega)

theorem cellInsert_wfFrom (m : Memory) (a lo : Nat) (v : Byte) (h : Memory.wfFrom lo m = true) (hne : ∀ c ∈ m, c.1 ≠ a)
    (hlo : lo ≤ a) (ha : a ≤ memTop) (hv : v ≠ unlisted a) : Memory.wfFrom lo (cellInsert m a v) = true := by
  induction m generalizing lo with
  | nil => simp [cellInsert, Memory.wfFrom, hlo, ha, hv]
  | cons c m ih =>
    obtain ⟨k, w⟩ := c
    have hk : k ≠ a := hne (k, w) (by simp)
    have hrec := ih (k + 1)
    simp only [Memory.wfFrom, Bool.and_eq_true, decide_eq_true_eq] at h
    simp only [cellInsert]
    split
    · simp only [Memory.wfFrom, Bool.and_eq_true, decide_eq_true_eq, bne_iff_ne]
      exact ⟨⟨⟨hlo, ha⟩, hv⟩, ⟨⟨⟨by omega, h.1.1.2⟩, by simpa using h.1.2⟩, h.2⟩⟩
    · simp only [Memory.wfFrom, Bool.and_eq_true, decide_eq_true_eq]
      exact ⟨h.1, hrec h.2 (fun c hc => hne c (by simp [hc])) (by omega)⟩

/-- A write at an address that exists keeps the canonical form. -/
theorem cellWrite_wf {m : Memory} (h : m.wf = true) {a : Nat} (ha : a ≤ memTop) (v : Byte) : (cellWrite m a v).wf = true := by
  unfold cellWrite
  split
  · exact cellErase_wfFrom m a 0 h
  · rename_i hv
    exact cellInsert_wfFrom _ a 0 v (cellErase_wfFrom m a 0 h) (cellErase_ne m a) (by omega) ha hv

/-- A block of writes at addresses that exist keeps the canonical form. -/
theorem cellWrites_wf {m : Memory} (h : m.wf = true) {a : Nat} {bs : List Byte} (hf : memFits a bs.length = true) :
    (cellWrites m a bs).wf = true := by
  induction bs generalizing m a with
  | nil => exact h
  | cons b bs ih =>
    rw [memFits_iff] at hf
    simp only [List.length_cons] at hf
    refine ih (cellWrite_wf h (by simp only [memTop]; omega) b) ?_
    rw [memFits_iff]; omega

/-- A block store keeps the canonical form. -/
theorem storeBlock_wf {s t : State} (h : s.mem.wf = true) {a : Nat} {bs : List Byte} (hs : storeBlock a bs s = some t) :
    t.mem.wf = true := by
  rcases storeBlock_cases a bs s with ⟨_, hn⟩ | ⟨hf, he⟩
  · simp [hn] at hs
  · rw [he, Option.some.injEq] at hs; subst hs; exact cellWrites_wf h hf

/-- Placing a word keeps the canonical form. -/
theorem placeWord_wf {m : Memory} (h : m.wf = true) (a : Nat) (w : Word) : (placeWord a w m).wf = true := by
  unfold placeWord
  split
  · rename_i hf; exact cellWrites_wf h (by simpa [wordBytes] using hf)
  · exact h

/-- The memory at reset is in canonical form. -/
theorem reset_mem_wf : State.reset.mem.wf = true := rfl

end Sys2Proof.Machine
end

