-- ==== Sys2Proof/Laws/Frames.lean ====
section
/-! SUPPORT. The shared ends of a form, in the terms of Sys2Proof/Safety.lean: what `finish`, a register write, an index write and a halting fault leave. -/

namespace Sys2Proof.Safety

open Sys2Proof.Machine

/-- The timer update counts from the timers of the state it is given. -/
theorem countedFrom_timerUpdate (u : State) : countedFrom u.delay u.sound (timerUpdate u) :=
  ⟨countDown_toNat _, countDown_toNat _, by simp⟩

/-- A step's end counts the timers, unless it is a stalled wait. -/
theorem countedFrom_finish (o : FormOutcome) (h : o ≠ .stallWait) (u : State) : countedFrom u.delay u.sound (finish o u) := by
  cases o with
  | stallWait => exact absurd rfl h
  | next => exact countedFrom_timerUpdate (updatePc .next u)
  | skip c => exact countedFrom_timerUpdate (updatePc (.skip c) u)
  | jump w => exact countedFrom_timerUpdate (updatePc (.jump w) u)
  | stallInvalid => exact countedFrom_timerUpdate u

/-- A step's end that wrote the timers to `d` and `e` before counting. -/
theorem countedFrom_finish_of {o : FormOutcome} (h : o ≠ .stallWait) {u : State} {d e : Byte} (hd : u.delay = d) (he : u.sound = e) :
    countedFrom d e (finish o u) := by
  subst hd he; exact countedFrom_finish o h u

theorem regsKept_refl (ws : List Nibble) {s t : State} (h : t.v = s.v) : regsKept ws s t := fun r _ => getV_congr h r

theorem memKept_of_mem {s t : State} (h : t.mem = s.mem) : memKept s t := fun a => memByte_congr h a

/-- The end of a form that wrote nothing but the pc. -/
theorem onlyRegs_finish (ws : List Nibble) (s : State) {o : FormOutcome} (h : o ≠ .stallWait) : onlyRegs ws s (finish o s) :=
  ⟨fun r _ => getV_finish r o s, by simp, ⟨by simp, by simp⟩, memKept_of_mem (by simp), ⟨by simp, by simp⟩,
    ⟨by simp, by simp, by simp⟩, by simp, countedFrom_finish o h s⟩

/-- The end of a form that wrote one register. -/
theorem onlyRegs_setV (x : Nibble) (b : Byte) (s : State) : onlyRegs [x] s (finish .next (setV x b s)) := by
  refine ⟨fun r hr => ?_, by simp, ⟨by simp, by simp⟩, memKept_of_mem (by simp), ⟨by simp, by simp⟩,
    ⟨by simp, by simp, by simp⟩, by simp, countedFrom_finish_of (by simp) (by simp) (by simp)⟩
  rw [getV_finish, getV_setV_ne (by simpa using hr)]

/-- The end of a form that wrote VF and then one register. -/
theorem onlyRegs_setVF_setV (x : Nibble) (b c : Byte) (s : State) :
    onlyRegs [x, 0xF#4] s (finish .next (setV x b (setVF c s))) := by
  refine ⟨fun r hr => ?_, by simp, ⟨by simp, by simp⟩, memKept_of_mem (by simp), ⟨by simp, by simp⟩,
    ⟨by simp, by simp, by simp⟩, by simp, countedFrom_finish_of (by simp) (by simp) (by simp)⟩
  simp only [List.mem_cons, List.not_mem_nil, or_false, not_or] at hr
  rw [getV_finish, getV_setV_ne hr.1, setVF, getV_setV_ne (by simpa [regVF] using hr.2)]

/-- The end of a form that wrote `I` alone. -/
theorem onlyRegsAndIndex_setIndexReg (w : Word) (s : State) : onlyRegsAndIndex [] s (finish .next (setIndexReg w s)) :=
  ⟨fun r _ => by simp, ⟨by simp, by simp⟩, memKept_of_mem (by simp), ⟨by simp, by simp⟩, ⟨by simp, by simp, by simp⟩, by simp,
    countedFrom_finish_of (by simp) (by simp) (by simp)⟩

/-- Raising a fault gives the state Safety names. -/
theorem raise_eq (k : HaltKind) (n : Word) (i : Instr) (s : State) : raise k n i s = .next (halted k n (some (encode i)) s) := rfl

theorem memBoundInfo_eq (w : Word) : memBoundInfo w = BitVec.ofNat 16 (max w.toNat 0x1000) := by
  unfold memBoundInfo
  split
  · rename_i h; rw [Nat.max_eq_right (by omega)]
  · rename_i h; rw [Nat.max_eq_left (by omega), BitVec.ofNat_toNat, BitVec.setWidth_eq]

theorem raiseMemBound_eq (i : Instr) (s : State) : raiseMemBound i s = .next (haltedMemBound i s) := by
  rw [raiseMemBound, raise_eq, memBoundInfo_eq]; rfl

end Sys2Proof.Safety
end

