-- ==== Sys2Proof/Laws/Ops.lean ====
section
/-! SUPPORT. One lemma for each shared operation that says everything it can do: the stack, blocks of registers, the input latch, the end of a step, fetching a placed word, the sum of the flag of add-index. -/

namespace Sys2Proof.Machine

/-! ## The stack -/

/-- A push either finds no entry or writes the pc to the entry at `sp` and counts it. -/
theorem pushPc_cases (s : State) :
    (16 ≤ s.sp.toNat ∧ pushPc s = none) ∨
      (s.sp.toNat < 16 ∧
        pushPc s = some { s with stack := s.stack.setIfInBounds s.sp.toNat s.pc, sp := s.sp + 1#8 }) := by
  unfold pushPc
  split
  · rename_i h; exact .inr ⟨h, rfl⟩
  · rename_i h; exact .inl ⟨by omega, rfl⟩

/-- A pop either finds no entry or answers the entry below `sp` and uncounts it. -/
theorem popEntry_cases (s : State) :
    (16 ≤ (s.sp - 1#8).toNat ∧ popEntry s = none) ∨
      ∃ entry, (s.sp - 1#8).toNat < 16 ∧ s.stack[(s.sp - 1#8).toNat]? = some entry ∧
        popEntry s = some (entry, { s with sp := s.sp - 1#8 }) := by
  unfold popEntry
  rcases Nat.lt_or_ge (s.sp - 1#8).toNat 16 with h | h
  · exact .inr ⟨_, h, Vector.getElem?_eq_getElem h, by rw [Vector.getElem?_eq_getElem h]; rfl⟩
  · exact .inl ⟨h, by rw [Vector.getElem?_eq_none h]; rfl⟩

/-! ## Blocks of registers -/

/-- What a register file holds at an index after a block is written from `k` on. -/
theorem getElem?_setRegsFrom (k : Nat) (bs : List Byte) (v : Vector Byte 16) (j : Nat) (hj : j < 16) :
    (setRegsFrom k bs v)[j]? = if k ≤ j then some ((bs[j - k]?).getD v[j]) else some v[j] := by
  induction bs generalizing k v with
  | nil => simp [setRegsFrom, hj]
  | cons b bs ih =>
    rw [setRegsFrom, ih]
    rcases Nat.lt_trichotomy j k with h | h | h
    · simp [show ¬ k + 1 ≤ j by omega, show ¬ k ≤ j by omega, show k ≠ j by omega]
    · subst h; simp [show ¬ j + 1 ≤ j by omega]
    · have h1 : j - k = (j - (k + 1)) + 1 := by omega
      simp [show k + 1 ≤ j by omega, show k ≤ j by omega, show k ≠ j by omega, h1]

/-- A register after a block has been written from `V[0]` on. -/
theorem getV_setRegs (bs : List Byte) (s : State) (r : Nibble) :
    getV r { s with v := setRegsFrom 0 bs s.v } = (bs[r.toNat]?).getD (getV r s) := by
  have h := getElem?_setRegsFrom 0 bs s.v r.toNat r.isLt
  rw [Vector.getElem?_eq_getElem r.isLt] at h
  simpa [getV] using h

@[simp] theorem length_blockRegs (x : Nibble) (s : State) : (blockRegs x s).length = x.toNat + 1 := by
  have := x.isLt
  simp [blockRegs]; omega

/-- The k-th value of a block of registers. -/
theorem getElem?_blockRegs (x k : Nibble) (s : State) (h : k.toNat ≤ x.toNat) : (blockRegs x s)[k.toNat]? = some (getV k s) := by
  have hk := k.isLt
  rw [blockRegs, List.getElem?_take_of_lt (by omega), Vector.getElem?_toList, Vector.getElem?_eq_getElem hk]; rfl

/-! ## The input latch -/

/-- The latch has a level for the indices 0..15 and for no other. -/
theorem keyLevel_cases (k : Nat) (s : State) :
    (16 ≤ k ∧ keyLevel k s = none) ∨ ∃ b, k < 16 ∧ keyLevel k s = some b := by
  rcases Nat.lt_or_ge k 16 with h | h
  · exact .inr ⟨_, h, Vector.getElem?_eq_getElem h⟩
  · exact .inl ⟨h, Vector.getElem?_eq_none h⟩

/-- The scan finds the lowest pressed key, or no key is pressed. -/
theorem firstKey_cases (s : State) :
    (firstKey s = none ∧ ∀ k, k < 16 → keyLevel k s = some false) ∨
      ∃ k, firstKey s = some k ∧ k < 16 ∧ keyLevel k s = some true ∧ ∀ j, j < k → keyLevel j s = some false := by
  have level : ∀ k, k < 16 → (keyLevel k s).getD false = false → keyLevel k s = some false := by
    intro k hk h
    rcases keyLevel_cases k s with ⟨h16, _⟩ | ⟨b, _, hb⟩
    · omega
    · rw [hb] at h ⊢; simpa using h
  cases hf : firstKey s with
  | none =>
    refine .inl ⟨rfl, fun k hk => level k hk ?_⟩
    have := List.find?_eq_none.1 hf k (by simpa using hk)
    simpa using this
  | some k =>
    obtain ⟨hk, hi, hlt⟩ := List.find?_range_eq_some.1 hf
    have hk16 : k < 16 := by simpa using hi
    refine .inr ⟨k, rfl, hk16, ?_, fun j hj => level j (by omega) (by simpa using hlt j hj)⟩
    rcases keyLevel_cases k s with ⟨h16, _⟩ | ⟨b, _, hb⟩
    · omega
    · rw [hb] at hk ⊢; simpa using hk

/-! ## The end of a step and the fetch -/

/-- Everything a step's end can do: a stalled wait outputs tone 0 and changes nothing else; any other end updates the pc and counts. -/
theorem finish_cases (o : FormOutcome) (s : State) :
    (o = .stallWait ∧ finish o s = noTone s) ∨ (o ≠ .stallWait ∧ finish o s = timerUpdate (updatePc o s)) := by
  cases o <;> simp

/-- Everything a fetch can do. -/
theorem fetch_cases (s : State) :
    (0xFFE < s.pc.toNat ∧ fetch s = none) ∨
      (s.pc.toNat ≤ 0xFFE ∧ fetch s = some (memByte s s.pc.toNat ++ memByte s (s.pc.toNat + 1))) := by
  unfold fetch
  split
  · rename_i h; exact .inl ⟨h, rfl⟩
  · rename_i h; exact .inr ⟨by omega, rfl⟩

/-- A word placed where the core fetches next is the word it fetches. -/
theorem fetch_withFetchWord (s : State) (nbits w : Nat) (h : s.pc.toNat ≤ 0xFFE) :
    fetch (s.withFetchWord nbits w) = some (tableWord nbits w) := by
  have hf : memFits s.pc.toNat 2 = true := by rw [memFits_iff]; omega
  have hw : ∀ v : Word, v.extractLsb' 8 8 ++ v.extractLsb' 0 8 = v := by
    intro v
    apply BitVec.eq_of_getLsbD_eq
    intro i hi
    simp only [BitVec.getLsbD_append, BitVec.getLsbD_extractLsb']
    interval_cases i <;> simp
  simp only [fetch, State.withFetchWord, placeWord, hf, if_true, memByte, cellRead_cellWrites, gt_iff_lt,
    show ¬ 0xFFE < s.pc.toNat by omega, if_false, wordBytes, Nat.le_refl, Nat.le_add_right, Nat.sub_self, Nat.add_sub_cancel_left,
    List.getElem?_cons_zero, List.getElem?_cons_succ, Option.getD_some, hw]

/-- A core that is not halted, with its pc at most 0xFFE, runs the instruction whose word is placed. -/
theorem step_withFetchWord (s : State) (nbits w : Nat) (i : Instr) (hh : s.halt = none) (hp : s.pc.toNat ≤ 0xFFE)
    (hd : decode (tableWord nbits w) = some i) : step (s.withFetchWord nbits w) = exec i (s.withFetchWord nbits w) := by
  have h1 : (s.withFetchWord nbits w).halt = none := hh
  simp only [step, h1, fetch_withFetchWord s nbits w hp, hd]

/-! ## The sum of `add-index`'s flag -/

theorem indexSum_unwrapped (index : Word) (v : Byte) : indexSum .unwrapped index v = index.toNat + v.toNat := rfl

theorem indexSum_sixteenBit (index : Word) (v : Byte) : indexSum .sixteenBit index v = (index.toNat + v.toNat) % 0x10000 := by
  have := v.isLt
  simp only [indexSum, wideByte, BitVec.toNat_add, BitVec.toNat_setWidth]
  omega

/-- The two readings agree on every sum of 16 bits. -/
theorem indexSum_eq_of_le {index : Word} {v : Byte} (h : index.toNat + v.toNat ≤ 0xFFFF) (r r' : IndexFlagSum) :
    indexSum r index v = indexSum r' index v := by
  cases r <;> cases r' <;> simp only [indexSum_unwrapped, indexSum_sixteenBit] <;> omega

end Sys2Proof.Machine
end

