-- ==== Sys2Proof/Laws/PerInstr.lean ====
section
/-! SUPPORT. One family of statements over the instructions as syntax: an instruction's word lies in its own row of the opcode table (spec/30_encoding.md R80). -/

namespace Sys2Proof.Laws.RowCovers

/-- The word of an instruction matches the mask and the pattern of the instruction's row. -/
def Statement (i : Instr) : Prop := (opcodeRow i).covers (encode i) = true

theorem clearScreen : Statement (.clearScreen) := rfl
theorem ret : Statement (.ret) := rfl
theorem jump (nnn : Addr) : Statement (.jump nnn) := beq_iff_eq.2 (mask_A ..)
theorem call (nnn : Addr) : Statement (.call nnn) := beq_iff_eq.2 (mask_A ..)
theorem skipEqImm (x : Nibble) (kk : Byte) : Statement (.skipEqImm x kk) := beq_iff_eq.2 (mask_XK ..)
theorem skipNeImm (x : Nibble) (kk : Byte) : Statement (.skipNeImm x kk) := beq_iff_eq.2 (mask_XK ..)
theorem skipEqReg (x : Nibble) (y : Nibble) (u : Nibble) : Statement (.skipEqReg x y u) := beq_iff_eq.2 (mask_XYN ..)
theorem skipNeReg (x : Nibble) (y : Nibble) (u : Nibble) : Statement (.skipNeReg x y u) := beq_iff_eq.2 (mask_XYN ..)
theorem loadImm (x : Nibble) (kk : Byte) : Statement (.loadImm x kk) := beq_iff_eq.2 (mask_XK ..)
theorem addImm (x : Nibble) (kk : Byte) : Statement (.addImm x kk) := beq_iff_eq.2 (mask_XK ..)
theorem loadReg (x : Nibble) (y : Nibble) : Statement (.loadReg x y) := beq_iff_eq.2 (mask_XY ..)
theorem or (x : Nibble) (y : Nibble) : Statement (.or x y) := beq_iff_eq.2 (mask_XY ..)
theorem and (x : Nibble) (y : Nibble) : Statement (.and x y) := beq_iff_eq.2 (mask_XY ..)
theorem xor (x : Nibble) (y : Nibble) : Statement (.xor x y) := beq_iff_eq.2 (mask_XY ..)
theorem addReg (x : Nibble) (y : Nibble) : Statement (.addReg x y) := beq_iff_eq.2 (mask_XY ..)
theorem subReg (x : Nibble) (y : Nibble) : Statement (.subReg x y) := beq_iff_eq.2 (mask_XY ..)
theorem shiftRight (x : Nibble) (y : Nibble) : Statement (.shiftRight x y) := beq_iff_eq.2 (mask_XY ..)
theorem subnReg (x : Nibble) (y : Nibble) : Statement (.subnReg x y) := beq_iff_eq.2 (mask_XY ..)
theorem shiftLeft (x : Nibble) (y : Nibble) : Statement (.shiftLeft x y) := beq_iff_eq.2 (mask_XY ..)
theorem setIndex (nnn : Addr) : Statement (.setIndex nnn) := beq_iff_eq.2 (mask_A ..)
theorem jumpOffset (nnn : Addr) : Statement (.jumpOffset nnn) := beq_iff_eq.2 (mask_A ..)
theorem random (x : Nibble) (kk : Byte) : Statement (.random x kk) := beq_iff_eq.2 (mask_XK ..)
theorem draw (x : Nibble) (y : Nibble) (n : Nibble) : Statement (.draw x y n) := beq_iff_eq.2 (mask_XYN ..)
theorem skipKeyPressed (x : Nibble) : Statement (.skipKeyPressed x) := beq_iff_eq.2 (mask_X ..)
theorem skipKeyNotPressed (x : Nibble) : Statement (.skipKeyNotPressed x) := beq_iff_eq.2 (mask_X ..)
theorem loadDelay (x : Nibble) : Statement (.loadDelay x) := beq_iff_eq.2 (mask_X ..)
theorem waitKey (x : Nibble) : Statement (.waitKey x) := beq_iff_eq.2 (mask_X ..)
theorem setDelay (x : Nibble) : Statement (.setDelay x) := beq_iff_eq.2 (mask_X ..)
theorem setSound (x : Nibble) : Statement (.setSound x) := beq_iff_eq.2 (mask_X ..)
theorem addIndex (x : Nibble) : Statement (.addIndex x) := beq_iff_eq.2 (mask_X ..)
theorem loadGlyphAddr (x : Nibble) : Statement (.loadGlyphAddr x) := beq_iff_eq.2 (mask_X ..)
theorem storeBcd (x : Nibble) : Statement (.storeBcd x) := beq_iff_eq.2 (mask_X ..)
theorem storeRegs (x : Nibble) : Statement (.storeRegs x) := beq_iff_eq.2 (mask_X ..)
theorem loadRegs (x : Nibble) : Statement (.loadRegs x) := beq_iff_eq.2 (mask_X ..)

end Sys2Proof.Laws.RowCovers
end

