-- ==== Sys2Proof/Tests/Slice0.lean ====
section
/-! SUPPORT. This model's own tests: the well-formedness smoke, every form's word written out from spec/30_encoding.md R80, single steps with the results spec/95_test_vectors.md gives (the id of the vector stands beside each), and a witness for the premises of every obligation that has some. -/

namespace Sys2Proof.Tests

open Sys2Proof Sys2Proof.Machine Sys2Proof.Safety

/-! ## Well-formedness: one good instruction, and one ill-formed term for each check (R83) -/

theorem test_wellFormed_good : Instr.wellFormed (.skipEqReg 3 4 0) = true ∧ Instr.wellFormed (.shiftLeft 3 0) = true := by decide
theorem test_wellFormed_refuses_skipEqReg_low_nibble : Instr.wellFormed (.skipEqReg 3 4 5) = false := by decide
theorem test_wellFormed_refuses_skipNeReg_low_nibble : Instr.wellFormed (.skipNeReg 3 4 0xA) = false := by decide
theorem test_wellFormed_refuses_shiftRight_y : Instr.wellFormed (.shiftRight 3 4) = false := by decide
theorem test_wellFormed_refuses_shiftLeft_y : Instr.wellFormed (.shiftLeft 3 0xF) = false := by decide

/-! ## Decoding: the bits of each word from the pattern of R80, group, x, y and n (or kk, nnn) apart -/

theorem test_decode_clearScreen : decode 0b0000_0000_1110_0000 = some .clearScreen := by decide
theorem test_decode_ret : decode 0b0000_0000_1110_1110 = some .ret := by decide
theorem test_decode_jump : decode 0b0001_1010_1011_1100 = some (.jump 0xABC) := by decide
theorem test_decode_call : decode 0b0010_0011_0100_0101 = some (.call 0x345) := by decide
theorem test_decode_skipEqImm : decode 0b0011_0111_1001_0001 = some (.skipEqImm 7 0x91) := by decide
theorem test_decode_skipNeImm : decode 0b0100_0111_1001_0001 = some (.skipNeImm 7 0x91) := by decide
theorem test_decode_skipEqReg : decode 0b0101_0011_0100_0101 = some (.skipEqReg 3 4 5) := by decide
theorem test_decode_skipNeReg : decode 0b1001_0011_0100_1010 = some (.skipNeReg 3 4 0xA) := by decide
theorem test_decode_loadImm : decode 0b0110_1111_0100_0010 = some (.loadImm 0xF 0x42) := by decide
theorem test_decode_addImm : decode 0b0111_0011_1000_0001 = some (.addImm 3 0x81) := by decide
theorem test_decode_loadReg : decode 0b1000_0011_1100_0000 = some (.loadReg 3 0xC) := by decide
theorem test_decode_or : decode 0b1000_0011_1100_0001 = some (.or 3 0xC) := by decide
theorem test_decode_and : decode 0b1000_0011_1100_0010 = some (.and 3 0xC) := by decide
theorem test_decode_xor : decode 0b1000_0011_1100_0011 = some (.xor 3 0xC) := by decide
theorem test_decode_addReg : decode 0b1000_0011_1100_0100 = some (.addReg 3 0xC) := by decide
theorem test_decode_subReg : decode 0b1000_0011_1100_0101 = some (.subReg 3 0xC) := by decide
theorem test_decode_shiftRight : decode 0b1000_0011_1100_0110 = some (.shiftRight 3 0xC) := by decide
theorem test_decode_subnReg : decode 0b1000_0011_1100_0111 = some (.subnReg 3 0xC) := by decide
theorem test_decode_shiftLeft : decode 0b1000_0011_1100_1110 = some (.shiftLeft 3 0xC) := by decide
theorem test_decode_setIndex : decode 0b1010_0001_0010_0011 = some (.setIndex 0x123) := by decide
theorem test_decode_jumpOffset : decode 0b1011_0001_0010_0011 = some (.jumpOffset 0x123) := by decide
theorem test_decode_random : decode 0b1100_0011_0000_1111 = some (.random 3 0x0F) := by decide
theorem test_decode_draw : decode 0b1101_0011_1100_0101 = some (.draw 3 0xC 5) := by decide
theorem test_decode_skipKeyPressed : decode 0b1110_0011_1001_1110 = some (.skipKeyPressed 3) := by decide
theorem test_decode_skipKeyNotPressed : decode 0b1110_0011_1010_0001 = some (.skipKeyNotPressed 3) := by decide
theorem test_decode_loadDelay : decode 0b1111_0011_0000_0111 = some (.loadDelay 3) := by decide
theorem test_decode_waitKey : decode 0b1111_0011_0000_1010 = some (.waitKey 3) := by decide
theorem test_decode_setDelay : decode 0b1111_0011_0001_0101 = some (.setDelay 3) := by decide
theorem test_decode_setSound : decode 0b1111_0011_0001_1000 = some (.setSound 3) := by decide
theorem test_decode_addIndex : decode 0b1111_0011_0001_1110 = some (.addIndex 3) := by decide
theorem test_decode_loadGlyphAddr : decode 0b1111_0011_0010_1001 = some (.loadGlyphAddr 3) := by decide
theorem test_decode_storeBcd : decode 0b1111_0011_0011_0011 = some (.storeBcd 3) := by decide
theorem test_decode_storeRegs : decode 0b1111_0011_0101_0101 = some (.storeRegs 3) := by decide
theorem test_decode_loadRegs : decode 0b1111_0011_0110_0101 = some (.loadRegs 3) := by decide

/-- R75 to R78 and V-ST-1 to V-ST-5: near misses of each group with a secondary key. -/
theorem test_decode_unrecognized :
    decode 0x0000 = none ∧ decode 0x01E0 = none ∧ decode 0x00E1 = none ∧ decode 0x8008 = none ∧ decode 0x834F = none ∧
      decode 0xE000 = none ∧ decode 0xF3FF = none := by decide

/-- R70: the high byte comes first, and fewer than two bytes are no instruction. -/
theorem test_decodeBytes :
    decodeBytes [0x63, 0x12, 0x99] = .form (.loadImm 3 0x12) [0x99] ∧ decodeBytes [0x83, 0x4F] = .unrecognized 0x834F [] ∧
      decodeBytes [0x63] = .truncated ∧ decodeBytes [] = .truncated := by decide

/-- The host's numbering: the bits of a word above the row's count are 0. -/
theorem test_decodeTableWord : decodeTableWord 16 0x6312 = some (.loadImm 3 0x12) ∧ decodeTableWord 8 0xEE = some .ret := by decide

/-! ## Small states -/

/-- Reset with these registers set. -/
def regs (l : List (Nibble × Byte)) : State := l.foldl (fun s p => setV p.1 p.2 s) State.reset

/-- Reset with these registers set and `I`. -/
def regsI (l : List (Nibble × Byte)) (i : Word) : State := { regs l with index := i }

/-- A state with bytes written from an address. -/
def poke (a : Nat) (bytes : List Byte) (s : State) : State := { s with mem := cellWrites s.mem a bytes }

/-- A state with keys pressed. -/
def press (ks : List Nat) (s : State) : State := { s with keys := ks.foldl (fun l k => l.setIfInBounds k true) s.keys }

/-- A state with a cell set. -/
def light (r : Fin 32) (c : Fin 64) (s : State) : State := { s with fb := fbSet s.fb r c true }

/-- A reset state with `n` stack entries, the topmost one `top`. -/
def stacked (n : Nat) (top : Word) : State :=
  { State.reset with sp := BitVec.ofNat 8 n, stack := State.reset.stack.setIfInBounds (n - 1) top }

/-- What a reader sees of the state after one step on a word placed at the pc. -/
def after {α : Type} (w : Nat) (see : State → α) (s : State) : Option α :=
  match step (s.withFetchWord 16 w) with
  | .next t => some (see t)
  | .fault _ => none
  | .refused _ => none

/-- A register, VF and the pc. -/
def xfp (x : Nibble) (s : State) : Byte × Byte × Word := (getV x s, getV 0xF s, s.pc)

/-- `I`, VF and the pc. -/
def ifp (s : State) : Word × Byte × Word := (s.index, getV 0xF s, s.pc)

/-- Three bytes of memory, `I` and the pc. -/
def bytesFrom (a : Nat) (s : State) : List Byte × Word × Word := (cellReads s.mem a 3, s.index, s.pc)

/-- The cells of a row that are 1, by column. -/
def litCols (r : Fin 32) (s : State) : List Nat := ((List.finRange 64).filter fun c => fbGet s.fb r c).map fun c => c.val

/-- The delay timer, the sound timer, the tone and the pc. -/
def timers (s : State) : Byte × Byte × Bool × Word := (s.delay, s.sound, s.tone, s.pc)

/-! ## Control flow (file 41) -/

theorem test_jump_V_CF_2 : after 0x1201 State.pc State.reset = some 0x0201 := by decide
theorem test_call_V_CF_4 :
    after 0x2300 (fun t => (t.pc, t.sp, t.stack[15])) (stacked 15 0) = some (0x0300, 16, 0x0200) := by decide
theorem test_call_overflow_V_CF_5 :
    after 0x2300 (fun t => (t.pc, t.sp, t.halt)) (stacked 16 0) = some (0x0200, 16, some ⟨.stackOverflow, 0x0200, some 0x2300, 0x10⟩) := by
  decide
theorem test_return_V_CF_6 :
    after 0x00EE (fun t => (t.pc, t.sp, t.stack[0])) (stacked 1 0x0450) = some (0x0452, 0, 0x0450) := by decide
theorem test_return_underflow_V_CF_7 :
    after 0x00EE (fun t => (t.pc, t.halt)) State.reset = some (0x0200, some ⟨.stackUnderflow, 0x0200, some 0x00EE, 0⟩) := by decide
theorem test_jumpOffset_V_CF_10 : after 0xBFFF State.pc (regs [(0, 0xFF)]) = some 0x10FE := by decide
theorem test_skipEqImm_V_CF_11 : after 0x3310 State.pc (regs [(3, 0x10)]) = some 0x0204 := by decide
theorem test_skipEqImm_V_CF_12 : after 0x3310 State.pc (regs [(3, 0x11)]) = some 0x0202 := by decide
theorem test_skipNeImm_V_CF_13 : after 0x4310 State.pc (regs [(3, 0x11)]) = some 0x0204 := by decide
theorem test_skipNeImm_V_CF_14 : after 0x4310 State.pc (regs [(3, 0x10)]) = some 0x0202 := by decide
theorem test_skipEqReg_V_CF_15 : after 0x5340 State.pc (regs [(3, 7), (4, 7)]) = some 0x0204 := by decide
theorem test_skipEqReg_V_CF_16 : after 0x5345 State.pc (regs [(3, 7), (4, 8)]) = some 0x0202 := by decide
theorem test_skipNeReg_V_CF_18 : after 0x9340 State.pc (regs [(3, 7), (4, 8)]) = some 0x0204 := by decide
theorem test_skipNeReg_V_CF_19 : after 0x934A State.pc (regs [(3, 7), (4, 7)]) = some 0x0202 := by decide

/-! ## Loads, ALU and random (file 42) -/

theorem test_loadImm_V_ALU_1 : after 0x6F42 (xfp 0xF) State.reset = some (0x42, 0x42, 0x0202) := by decide
theorem test_addImm_V_ALU_2 : after 0x7301 (xfp 3) (regs [(3, 0xFF), (0xF, 0x55)]) = some (0, 0x55, 0x0202) := by decide
theorem test_addImm_V_ALU_3 : after 0x7F05 (xfp 0xF) (regs [(0xF, 0x10)]) = some (0x15, 0x15, 0x0202) := by decide
theorem test_loadReg_V_ALU_4 : after 0x8340 (xfp 3) (regs [(4, 0x55)]) = some (0x55, 0, 0x0202) := by decide
theorem test_or_V_ALU_6 : after 0x8341 (xfp 3) (regs [(3, 0x0F), (4, 0xF0), (0xF, 0x77)]) = some (0xFF, 0x77, 0x0202) := by decide
theorem test_and_V_ALU_7 : after 0x8342 (xfp 3) (regs [(3, 0x3C), (4, 0x0F), (0xF, 0x77)]) = some (0x0C, 0x77, 0x0202) := by decide
theorem test_xor_V_ALU_8 : after 0x8343 (xfp 3) (regs [(3, 0x3C), (4, 0x0F)]) = some (0x33, 0, 0x0202) := by decide
theorem test_addReg_V_ALU_12 : after 0x8344 (xfp 3) (regs [(3, 0x7F), (4, 0x80)]) = some (0xFF, 0, 0x0202) := by decide
theorem test_addReg_V_ALU_16 : after 0x83F4 (xfp 3) (regs [(3, 0x10), (0xF, 0xF0)]) = some (0x11, 1, 0x0202) := by decide
theorem test_subReg_V_ALU_20 : after 0x8345 (xfp 3) (regs [(3, 0x42), (4, 0x42), (0xF, 1)]) = some (0, 0, 0x0202) := by decide
theorem test_subReg_V_ALU_21 : after 0x8F45 (xfp 0xF) (regs [(0xF, 5), (4, 3)]) = some (0xFE, 0xFE, 0x0202) := by decide
theorem test_subnReg_V_ALU_24 : after 0x8347 (xfp 3) (regs [(3, 5), (4, 3), (0xF, 1)]) = some (2, 0, 0x0202) := by decide
theorem test_subnReg_V_ALU_27 : after 0x83F7 (xfp 3) (regs [(3, 1), (0xF, 5)]) = some (0, 1, 0x0202) := by decide
theorem test_shiftRight_V_ALU_30 : after 0x8346 (xfp 3) (regs [(3, 5), (4, 0xFF)]) = some (2, 1, 0x0202) := by decide
theorem test_shiftRight_V_ALU_31 : after 0x8F06 (xfp 0xF) (regs [(0xF, 3)]) = some (0, 0, 0x0202) := by decide
theorem test_shiftLeft_V_ALU_32 : after 0x830E (xfp 3) (regs [(3, 0x81)]) = some (2, 1, 0x0202) := by decide
theorem test_shiftLeft_V_ALU_34 : after 0x8F0E (xfp 0xF) (regs [(0xF, 0x80)]) = some (2, 2, 0x0202) := by decide
/-- V-ALU-36, for any drawn byte. -/
theorem test_random_V_ALU_36 : after 0xC300 (xfp 3) (regs [(3, 0x55)]) = some (0, 0, 0x0202) := by
  show some (Config.randomByte 0 &&& 0#8, _, _) = _
  rw [BitVec.and_zero]; rfl

/-! ## Index register and memory (file 43) -/

theorem test_setIndex_V_MEM_1 : after 0xA300 ifp State.reset = some (0x0300, 0, 0x0202) := by decide
theorem test_addIndex_V_MEM_5 : after 0xF31E ifp (regsI [(3, 1)] 0xFFFF) = some (0, 0, 0x0202) := by decide
theorem test_addIndex_V_MEM_6 : after 0xFF1E ifp (regsI [(0xF, 1)] 0x0FFF) = some (0x1000, 1, 0x0202) := by decide
theorem test_loadGlyphAddr_V_MEM_9 : after 0xF329 ifp (regs [(3, 0xFF)]) = some (0x04FB, 0, 0x0202) := by decide
theorem test_storeBcd_V_MEM_10 :
    after 0xF333 (bytesFrom 0x300) (regsI [(3, 0x7B)] 0x300) = some ([1, 3, 2], 0x300, 0x0202) := by decide
theorem test_storeBcd_V_MEM_16 :
    after 0xF333 (fun t => (t.halt, t.mem.length)) (regsI [(3, 9)] 0xFFE) =
      some (some ⟨.memBound, 0x0200, some 0xF333, 0x1000⟩, 2) := by decide
theorem test_storeRegs_V_MEM_17 :
    after 0xF155 (bytesFrom 0x300) (regsI [(0, 0x11), (1, 0x22)] 0x300) = some ([0x11, 0x22, 0], 2, 0x0202) := by decide
theorem test_storeRegs_V_MEM_20 :
    after 0xFF55 State.halt (regsI [] 0xFF1) = some (some ⟨.memBound, 0x0200, some 0xFF55, 0x1000⟩) := by decide
theorem test_loadRegs_V_MEM_23 :
    after 0xF165 (fun t => (t.halt, getV 0 t)) (regsI [(0, 7)] 0xFFF) = some (some ⟨.memBound, 0x0200, some 0xF165, 0x1000⟩, 7) := by
  decide
theorem test_loadRegs_V_MEM_24 :
    after 0xFF65 (fun t => (t.v.toList, t.index)) (regsI [(0xF, 0x33)] 0) =
      some ([0xF0, 0x90, 0x90, 0x90, 0xF0, 0x20, 0x60, 0x20, 0x20, 0x70, 0xF0, 0x10, 0xF0, 0x80, 0xF0, 0xF0], 0x0010) := by decide

/-! ## Framebuffer (file 44) -/

theorem test_clearScreen_V_DSP_1 : after 0x00E0 (fun t => (litCols 5 t, t.redraw)) (light 5 5 State.reset) = some ([], true) := by
  decide +kernel
theorem test_draw_V_DSP_4 :
    after 0xD011 (fun t => (litCols 0 t, getV 0xF t)) (poke 0x300 [0xFF] (regsI [(0, 60)] 0x300)) =
      some ([0, 1, 2, 3, 60, 61, 62, 63], 0) := by decide +kernel
theorem test_draw_V_DSP_9 :
    after 0xD011 (fun t => (litCols 0 t, getV 0xF t)) (light 0 0 (poke 0x300 [0x80] (regsI [] 0x300))) = some ([], 1) := by
  decide +kernel

/-! ## Timers and input (file 45) -/

theorem test_loadDelay_V_TI_1 :
    after 0xF307 (fun t => (getV 3 t, t.delay)) { State.reset with delay := 5 } = some (5, 4) := by decide
theorem test_setDelay_V_TI_5 : after 0xF315 timers { State.reset with delay := 9 } = some (0, 0, false, 0x0202) := by decide
theorem test_setSound_V_TI_6 : after 0xF318 timers (regs [(3, 1)]) = some (0, 0, true, 0x0202) := by decide
theorem test_skipKeyPressed_V_TI_9 : after 0xE39E State.pc (press [7] (regs [(3, 7)])) = some 0x0204 := by decide
theorem test_skipKeyPressed_V_TI_11 :
    after 0xE39E State.halt (regs [(3, 0x10)]) = some (some ⟨.keyRange, 0x0200, some 0xE39E, 0x10⟩) := by decide
theorem test_skipKeyNotPressed_V_TI_13 : after 0xE3A1 State.pc (press [7] (regs [(3, 7)])) = some 0x0202 := by decide
theorem test_skipKeyNotPressed_V_TI_14 :
    after 0xE3A1 State.halt (regs [(3, 0xFF)]) = some (some ⟨.keyRange, 0x0200, some 0xE3A1, 0xFF⟩) := by decide
theorem test_waitKey_V_TI_15 :
    after 0xF30A timers { State.reset with delay := 5, sound := 5 } = some (5, 5, false, 0x0200) := by decide
theorem test_waitKey_V_TI_16 :
    after 0xF30A (fun t => (getV 3 t, timers t)) (press [0xC, 9] { State.reset with delay := 5 }) =
      some (9, 4, 0, false, 0x0202) := by decide

/-! ## The step and the host's operations (files 40 and 60) -/

theorem test_step_V_ST_2 :
    after 0xE000 (fun t => (t.invalid, t.pc)) { State.reset with invalid := some ⟨0x0100, 0x8008⟩ } =
      some (some ⟨0x0100, 0x8008⟩, 0x0200) := by decide
theorem test_step_V_ST_7 :
    after 0x6001 State.halt { State.reset with pc := 0x0FFF } = some (some ⟨.fetchBound, 0x0FFF, none, 0x0FFF⟩) := by decide
theorem test_step_V_ST_8 :
    after 0x6001 timers { State.reset with delay := 5, halt := some ⟨.stackUnderflow, 0x0200, some 0x00EE, 0⟩ } =
      some (5, 0, false, 0x0200) := by decide
theorem test_step_V_ST_9 : after 0x6312 (xfp 3) { State.reset with pc := 0x0201 } = some (0x12, 0, 0x0203) := by decide
theorem test_load_V_HO_1 :
    hostOp (.load [0x60, 0x01, 0x12, 0x02]) State.reset =
      .next (.ok, { State.reset with mem := [(0x200, 0x60), (0x201, 0x01), (0x202, 0x12), (0x203, 0x02)] }) := rfl
theorem test_setKey_V_HO_9 : hostOp (.setKey 16 true) State.reset = .refused .keyIndexAbsent := rfl
/-- The codes of R241; that the halting fault's wins over the invalid word's is the model's choice (log 11). -/
theorem test_causeCode :
    causeCode State.reset = 0 ∧ causeCode { State.reset with invalid := some ⟨0x0200, 0⟩ } = 1 ∧
      causeCode { State.reset with invalid := some ⟨0x0200, 0⟩, halt := some ⟨.keyRange, 0x0200, some 0xE39E, 0x10⟩ } = 6 := by decide
/-- The level at the step decides, not the presses before it. -/
theorem test_hostRun_V_HO_8 :
    (match hostRun [.load [0xE3, 0x9E], .setKey 5 true, .setKey 5 false, .step] (regs [(3, 5)]) with
      | .next (rs, t) => some (rs.length, t.pc)
      | .fault _ => none
      | .refused _ => none) = some (4, 0x0202) := by decide +kernel
/-- Writing back what an unlisted address reads as removes the entry. -/
theorem test_cellWrite_canonical : cellWrite (cellWrite [] 0 0x12) 0 0xF0 = [] ∧ Memory.wf [(0, 0xF0)] = false ∧
    Memory.wf [(5, 1), (4, 1)] = false ∧ Memory.wf [(0x1000, 1)] = false := by decide

/-! ## Witnesses: a concrete state and operands for the premises of each obligation, one for each of its clauses, at the bounds -/

/-- The last stack entry and key, and the addresses on both sides of the glyph table's end. -/
theorem witness_ResetHoldsTheSpecsValues : 15 < 16 ∧ (0x04F : Nat) ≤ 0x04F ∧ (0x050 : Nat) ≤ 0x050 := by decide

theorem witness_EncodeOfDecode : decode 0x834E = some (.shiftLeft 3 4) := by decide

theorem witness_DecodeFollowsTheOpcodeTable :
    decode 0x834E = some (.shiftLeft 3 4) ∧ opcodeRow (.shiftLeft 3 4) ∈ opcodeRows ∧ decode 0x834F = none ∧
      opcodeRow .ret ∈ opcodeRows := by decide

/-- A state at the last address a fetch can read, with this word there. -/
def atTop (w : Nat) : State := State.withFetchWord { State.reset with pc := 0x0FFE } 16 w

theorem witness_StepRunsTheDecodedInstruction :
    (atTop 0x6001).halt = none ∧ (atTop 0x6001).pc.toNat ≤ 0xFFE ∧
      decode (memByte (atTop 0x6001) (atTop 0x6001).pc.toNat ++ memByte (atTop 0x6001) ((atTop 0x6001).pc.toNat + 1)) =
        some (.loadImm 0 1) := by decide

theorem witness_UnrecognizedWordStalls :
    (atTop 0xF3FF).halt = none ∧ (atTop 0xF3FF).pc.toNat ≤ 0xFFE ∧
      decode (memByte (atTop 0xF3FF) (atTop 0xF3FF).pc.toNat ++ memByte (atTop 0xF3FF) ((atTop 0xF3FF).pc.toNat + 1)) = none := by
  decide

theorem witness_FetchReadsTheWordOrHalts :
    State.halt { State.reset with pc := 0x0FFE } = none ∧ (0x0FFE : Word).toNat ≤ 0xFFE ∧
      State.halt { State.reset with pc := 0x0FFF } = none ∧ 0xFFE < (0x0FFF : Word).toNat := by decide

/-- A core halted by an empty-stack `return` after an unrecognized word was recorded. -/
def haltedCore : State :=
  { State.reset with invalid := some ⟨0x0300, 0xE000⟩, halt := some ⟨.stackUnderflow, 0x0200, some 0x00EE, 0⟩ }

theorem witness_HaltedCoreTakesNoStep : haltedCore.halt ≠ none := by decide

/-- A core in a subroutine called from 0x208, with a program in memory and a word recorded. -/
def busyCore : State :=
  { stacked 1 0x0208 with pc := 0x0300, mem := [(0x301, 0xEE)], invalid := some ⟨0x0FFE, 0x8348⟩ }

theorem busyCore_inv : Inv busyCore := by
  refine ⟨by decide, ⟨by decide, fun k hk w hw => ?_⟩, by decide, (fun h hh => by cases hh), fun r hr => ?_⟩
  · have key : ∀ k, k < 16 → (busyCore.stack[k]?.getD 0).toNat ≤ 0xFFE := by decide
    have := key k hk
    rwa [hw] at this
  · cases hr; decide

theorem haltedCore_inv : Inv haltedCore := by
  refine ⟨by decide, ⟨by decide, fun k hk w hw => ?_⟩, by decide, fun h hh => ?_, fun r hr => ?_⟩
  · have key : ∀ k, k < 16 → (haltedCore.stack[k]?.getD 0).toNat ≤ 0xFFE := by decide
    have := key k hk
    rwa [hw] at this
  · cases hh
    exact ⟨rfl, rfl, by decide, fun w hw => by cases hw; decide⟩
  · cases hr; decide

/-- The state `return` leaves in `busyCore`. -/
theorem busyCore_step : ∃ t, step busyCore = .next t ∧ t.pc = 0x020A ∧ t.sp = 0 := ⟨_, rfl, rfl, rfl⟩

theorem witness_EveryStepKeepsInv : ∃ s t, Inv s ∧ step s = .next t :=
  ⟨busyCore, _, busyCore_inv, rfl⟩

theorem witness_EveryHostOperationKeepsInv :
    (∃ s r t, Inv s ∧ hostOp .step s = .next (r, t)) ∧ (∃ s r t, Inv s ∧ hostOp (.load [0x12, 0x34]) s = .next (r, t)) ∧
      ∃ s r t, Inv s ∧ hostOp (.setKey 15 true) s = .next (r, t) :=
  ⟨⟨busyCore, _, _, busyCore_inv, rfl⟩, ⟨haltedCore, _, _, haltedCore_inv, rfl⟩, ⟨haltedCore, _, _, haltedCore_inv, rfl⟩⟩

theorem witness_EveryStepAnswersNext : Inv busyCore ∧ Inv haltedCore := ⟨busyCore_inv, haltedCore_inv⟩

theorem witness_HaltingFaultsArePrecise :
    ∃ t, step ((stacked 16 0).withFetchWord 16 0x2300) = .next t ∧ t.halt ≠ ((stacked 16 0).withFetchWord 16 0x2300).halt :=
  ⟨_, rfl, by decide⟩

theorem witness_FaultRecordsStay :
    ∃ r t, hostOp .step haltedCore = .next (r, t) ∧ haltedCore.halt = some ⟨.stackUnderflow, 0x0200, some 0x00EE, 0⟩ ∧
      haltedCore.invalid = some ⟨0x0300, 0xE000⟩ := ⟨_, _, rfl, rfl, rfl⟩

/-- `set-index` writes neither memory nor display; `draw` writes no memory, `store-regs` no display. -/
theorem witness_OnlyTheseFormsWriteMemoryOrDisplay :
    (∃ t, exec (.setIndex 0x300) busyCore = .next t) ∧ (∃ t, exec (.draw 0 1 1) busyCore = .next t) ∧
      (∀ x, Instr.draw 0 1 1 ≠ .storeBcd x) ∧ (∀ x, Instr.draw 0 1 1 ≠ .storeRegs x) ∧
      (∃ t, exec (.storeRegs 0xF) busyCore = .next t) ∧ Instr.storeRegs 0xF ≠ .clearScreen ∧
      ∀ x y n, Instr.storeRegs 0xF ≠ .draw x y n :=
  ⟨⟨_, rfl⟩, ⟨_, rfl⟩, nofun, nofun, ⟨_, rfl⟩, nofun, nofun⟩

theorem witness_OnlyTheseFormsWriteStackOrIndex :
    (∃ t, exec (.setIndex 0x300) busyCore = .next t) ∧ Instr.setIndex 0x300 ≠ .ret ∧ (∀ a, Instr.setIndex 0x300 ≠ .call a) ∧
      (∃ t, exec .ret busyCore = .next t) ∧ (∀ a, Instr.ret ≠ .setIndex a) ∧ (∀ x, Instr.ret ≠ .addIndex x) ∧
      (∀ x, Instr.ret ≠ .loadGlyphAddr x) ∧ (∀ x, Instr.ret ≠ .storeRegs x) ∧ ∀ x, Instr.ret ≠ .loadRegs x :=
  ⟨⟨_, rfl⟩, nofun, nofun, ⟨_, rfl⟩, nofun, nofun, nofun, nofun, nofun⟩

/-- A form that counts, a `wait-key` that stalls, and a form that faults. -/
theorem witness_TimersCountOncePerStep :
    (∃ t, exec (.setDelay 3) (regs [(3, 5)]) = .next t) ∧
      (∃ t, exec (.waitKey 3) State.reset = .next t ∧ ∀ k, k < 16 → keyLevel k State.reset = some false) ∧
      ∃ t, exec .ret State.reset = .next t ∧ t.halt ≠ none :=
  ⟨⟨_, rfl⟩, ⟨_, rfl, by decide⟩, ⟨_, rfl, by decide⟩⟩

theorem witness_FormsNeverWriteKeysOrInvalid : ∃ t, exec (.waitKey 0xF) (press [0xC, 9] busyCore) = .next t := ⟨_, rfl⟩

/-- The stored block is the word at 0xFFE, the last one a fetch reads. -/
theorem witness_NextFetchSeesStoredWord :
    (0x0FFE : Word).toNat + (1 : Nibble).toNat ≤ 0xFFF ∧ (1 : Nibble).toNat = (0 : Nibble).toNat + 1 ∧
      (1 : Nibble).toNat ≤ (1 : Nibble).toNat ∧
      (State.pc { regsI [] 0x0FFE with pc := 0x0FFC }).toNat + 2 =
        (State.index { regsI [] 0x0FFE with pc := 0x0FFC }).toNat + (0 : Nibble).toNat := by decide

theorem witness_CallPushesItsOwnAddress : (stacked 15 0).sp.toNat < 16 ∧ (stacked 16 0).sp = 16#8 := by decide

theorem witness_ReturnPopsTheLatestCall :
    0 < (stacked 1 0x0450).sp.toNat ∧ 0 < (stacked 16 0x0450).sp.toNat ∧ (stacked 16 0x0450).sp.toNat ≤ 16 ∧
      State.reset.sp = 0#8 := by decide

theorem witness_CallThenReturnComesBack : (stacked 15 0).sp.toNat < 16 ∧ State.reset.sp.toNat < 16 := by decide

theorem witness_NoStackEntryBeyondSixteen : 16 < (stacked 17 0).sp.toNat := by decide

/-- The carry at 255 and at 256, and each place `F` can stand. -/
theorem witness_AddRegSumsAndCarries :
    ((0#8 : Byte) = if (getV 3 (regs [(3, 0x7F), (4, 0x80)])).toNat + (getV 4 (regs [(3, 0x7F), (4, 0x80)])).toNat > 255 then 1#8 else 0#8) ∧
      ((1#8 : Byte) = if (getV 3 (regs [(3, 0x80), (4, 0x80)])).toNat + (getV 4 (regs [(3, 0x80), (4, 0x80)])).toNat > 255 then 1#8 else 0#8) ∧
      (3 : Nibble) ≠ 0xF#4 ∧ (4 : Nibble) ≠ 0xF#4 ∧
      ((1#8 : Byte) = if (getV 0xF (regs [(0xF, 0x80)])).toNat + (getV 0xF (regs [(0xF, 0x80)])).toNat > 255 then 1#8 else 0#8) := by
  decide

/-- Equal operands and operands one apart, and each place `F` can stand. -/
theorem witness_SubRegSubtractsAndFlags :
    ((0#8 : Byte) = if (getV 3 (regs [(3, 5), (4, 5)])).toNat > (getV 4 (regs [(3, 5), (4, 5)])).toNat then 1#8 else 0#8) ∧
      ((1#8 : Byte) = if (getV 3 (regs [(3, 6), (0xF, 5)])).toNat > (getV 0xF (regs [(3, 6), (0xF, 5)])).toNat then 1#8 else 0#8) ∧
      (3 : Nibble) ≠ 0xF#4 ∧ (4 : Nibble) ≠ 0xF#4 ∧
      ((0#8 : Byte) = if (getV 0xF (regs [(0xF, 5)])).toNat > (getV 0xF (regs [(0xF, 5)])).toNat then 1#8 else 0#8) := by decide

theorem witness_SubnRegSubtractsTheSameWay :
    ((0#8 : Byte) = if (getV 4 (regs [(3, 5), (4, 5)])).toNat > (getV 3 (regs [(3, 5), (4, 5)])).toNat then 1#8 else 0#8) ∧
      ((1#8 : Byte) = if (getV 0xF (regs [(3, 5), (0xF, 6)])).toNat > (getV 3 (regs [(3, 5), (0xF, 6)])).toNat then 1#8 else 0#8) ∧
      (3 : Nibble) ≠ 0xF#4 ∧ (4 : Nibble) ≠ 0xF#4 ∧
      ((0#8 : Byte) = if (getV 0xF (regs [(0xF, 5)])).toNat > (getV 0xF (regs [(0xF, 5)])).toNat then 1#8 else 0#8) := by decide

theorem witness_ShiftsMoveVxAndFlagTheBit : (0xE : Nibble) ≠ 0xF#4 ∧ (0xF : Nibble) = 0xF#4 := by decide

/-- Sums at 0xFFF, at 0x1000 and past 16 bits. -/
theorem witness_AddIndexFlagsThenAdds :
    0xFFF = ((regsI [(3, 1)] 0x0FFE).index.toNat + (getV 3 (regsI [(3, 1)] 0x0FFE)).toNat) % 0x10000 ∧
      0x1000 = ((regsI [(0xF, 1)] 0x0FFF).index.toNat + (getV 0xF (regsI [(0xF, 1)] 0x0FFF)).toNat) % 0x10000 ∧
      0 = ((regsI [(3, 1)] 0xFFFF).index.toNat + (getV 3 (regsI [(3, 1)] 0xFFFF)).toNat) % 0x10000 ∧ (3 : Nibble) ≠ 0xF#4 := by
  decide

/-- The last sum on which the two readings agree, and the first on which they do not. -/
theorem witness_AddIndexWithTheUnwrappedFlag :
    0xFFFF = (regsI [(3, 1)] 0xFFFE).index.toNat + (getV 3 (regsI [(3, 1)] 0xFFFE)).toNat ∧ 0xFFFF ≤ 0xFFFF ∧
      0x10000 = (regsI [(3, 1)] 0xFFFF).index.toNat + (getV 3 (regsI [(3, 1)] 0xFFFF)).toNat ∧ (3 : Nibble) ≠ 0xF#4 ∧
      0x10000 = (regsI [(0xF, 1)] 0xFFFF).index.toNat + (getV 0xF (regsI [(0xF, 1)] 0xFFFF)).toNat := by decide

theorem witness_StoreBcdWritesThreeDigits :
    (regsI [] 0x0FFD).index.toNat + 2 ≤ 0xFFF ∧ 0xFFF < (regsI [] 0x0FFE).index.toNat + 2 := by decide

theorem witness_StoreRegsWritesTheBlock :
    (regsI [] 0x0FF0).index.toNat + (0xF : Nibble).toNat ≤ 0xFFF ∧ 0xFFF < (regsI [] 0x0FF1).index.toNat + (0xF : Nibble).toNat ∧
      (0xF : Nibble).toNat ≤ (0xF : Nibble).toNat := by decide

theorem witness_LoadRegsReadsTheBlock :
    (regsI [] 0x0FFE).index.toNat + (1 : Nibble).toNat ≤ 0xFFF ∧ 0xFFF < (regsI [] 0x0FFF).index.toNat + (1 : Nibble).toNat ∧
      (1 : Nibble).toNat ≤ (1 : Nibble).toNat ∧ (1 : Nibble).toNat < (2 : Nibble).toNat := by decide

/-- One row at 0xFFF, its left pixel 1 and the others 0; the cell under it is lit or not. -/
def spriteAtTop : State := poke 0xFFF [0x80] (regsI [] 0x0FFF)

theorem spriteAtTop_covers : spriteCovers 0 1 1 (light 0 0 spriteAtTop) 0 0 :=
  ⟨0, by decide, 0, by decide, by decide, by decide, by decide⟩

/-- A draw that fits exactly and one that does not; a covered cell that is 1, a cell that is not covered, and a screen with no
collision. -/
theorem witness_DrawTogglesTheCoveredCells :
    spriteAtTop.index.toNat + ((1 : Nibble).toNat - 1) ≤ 0xFFF ∧
      ((2 : Nibble) ≠ 0#4 ∧ 0xFFF < spriteAtTop.index.toNat + ((2 : Nibble).toNat - 1)) ∧
      (spriteCovers 0 1 1 (light 0 0 spriteAtTop) 0 0 ∧ fbGet (light 0 0 spriteAtTop).fb 0 0 = true) ∧
      ¬ spriteCovers 0 1 1 spriteAtTop 1 0 ∧
      ¬ ∃ r c, spriteCovers 0 1 1 spriteAtTop r c ∧ fbGet spriteAtTop.fb r c = true := by
  refine ⟨by decide, by decide, ⟨spriteAtTop_covers, by decide +kernel⟩, ?_, ?_⟩
  · rintro ⟨i, hi, j, _, h, _⟩
    have h0 : i = 0 := by simpa using hi
    subst h0
    exact absurd h (by decide)
  · rintro ⟨r, c, _, h⟩
    have dark : ∀ r c, fbGet spriteAtTop.fb r c = false := by decide +kernel
    rw [dark] at h
    cases h

/-- A draw of no rows, whatever `I`. -/
theorem witness_DrawingTwiceRestoresTheScreen :
    (0xE : Nibble) ≠ 0xF#4 ∧ (0 : Nibble) ≠ 0xF#4 ∧ (0 : Nibble) = 0#4 ∧
      (regsI [] 0x0FF1).index.toNat + ((0xF : Nibble).toNat - 1) ≤ 0xFFF := by decide

theorem witness_KeySkipsTestTheLevel :
    (getV 3 (regs [(3, 0xF)])).toNat ≤ 0xF ∧ 0xF < (getV 3 (regs [(3, 0x10)])).toNat := by decide

/-- The highest key alone, the lowest key, and none. -/
theorem witness_WaitKeyTakesTheLowestKeyOrStalls :
    (keyLevel 15 (press [15] State.reset) = some true ∧ ∀ j, j < 15 → keyLevel j (press [15] State.reset) = some false) ∧
      (keyLevel 0 (press [0] State.reset) = some true ∧ ∀ j, j < 0 → keyLevel j (press [0] State.reset) = some false) ∧
      ∀ k, k < 16 → keyLevel k State.reset = some false := by decide

theorem witness_LoadPlacesTheProgramOrRejects :
    (List.replicate 3584 (0x12 : Byte)).length ≤ 3584 ∧ 3584 < (List.replicate 3585 (0x12 : Byte)).length := by
  simp only [List.length_replicate]; decide

theorem witness_SetKeyWritesOneLevel : 15 < 16 ∧ 16 ≤ 16 := by decide

end Sys2Proof.Tests
end

section
/-! PROOFS. What an instruction, a step and an operation of the host can do, each said once (`decode_encode`, `exec_end`, `step_cases`,
`hostOp_cases`), and the statements about the state (spec/10_state.md) that follow from them. -/

namespace Sys2Proof

/-! ## Decoding an instruction's word -/

/-- The word of an instruction decodes to it: the group and the key select its arm, the fields are its operands (`30_encoding.md` R80). -/
theorem decode_encode (i : Instr) : decode (encode i) = some i := by
  cases i with
  | clearScreen | ret => rfl
  | _ => simp [decode, encode, fields_of_A, fields_of_XK, fields_of_XYN, decodeGroup8, decodeGroupE, decodeGroupF]

end Sys2Proof

namespace Sys2Proof.Machine

open Sys2Proof.Safety

/-! ## Operands as numbers -/

@[simp] theorem addrOperand_toNat (nnn : Addr) : (addrOperand nnn).toNat = nnn.toNat := by
  have := nnn.isLt
  simp only [addrOperand, BitVec.toNat_setWidth]; omega

@[simp] theorem wideByte_toNat (b : Byte) : (wideByte b).toNat = b.toNat := by
  have := b.isLt
  simp only [wideByte, BitVec.toNat_setWidth]; omega

/-- The target of `jump-offset` is an exact sum, at most 0x10FE. -/
theorem offsetTarget_toNat (nnn : Addr) (s : State) :
    (offsetTarget nnn s).toNat = nnn.toNat + (getV 0#4 s).toNat := by
  have := nnn.isLt
  have := (getV 0#4 s).isLt
  simp only [offsetTarget, BitVec.toNat_add, addrOperand_toNat, wideByte_toNat]; omega

theorem memBoundInfo_ge (index : Word) : 0x1000 ≤ (memBoundInfo index).toNat := by
  unfold memBoundInfo
  split
  · decide
  · omega

/-! ## What a form can do -/

/-- The delay timer a form leaves for the step's count (`45_timers_input.md` R221). -/
def delayWritten (i : Instr) (s : State) : Byte :=
  match i with
  | .setDelay x => getV x s
  | _ => s.delay

/-- The sound timer a form leaves for the step's count (`45_timers_input.md` R222). -/
def soundWritten (i : Instr) (s : State) : Byte :=
  match i with
  | .setSound x => getV x s
  | _ => s.sound

/-- `u` is `s` with the latest entry taken off the stack (`41_control_flow.md` R131). -/
def popped (s u : State) : Prop := s.sp ≠ 0#8 ∧ u.sp = s.sp - 1#8 ∧ u.sp.toNat < 16 ∧ u.stack = s.stack

/-- `u` is `s` with its pc put on the stack (`41_control_flow.md` R133). -/
def pushed (s u : State) : Prop :=
  s.sp.toNat < 16 ∧ u.sp = s.sp + 1#8 ∧ u.stack = s.stack.setIfInBounds s.sp.toNat s.pc

/-- What form `i`, begun in `s` and ending in outcome `o`, has written in `u` before the step's end updates the pc and the timers. Each
field has the proof that the form left that part alone as its default, so that `exec_end` names for each form only what it writes. -/
structure FormBody (i : Instr) (s : State) (o : FormOutcome) (u : State) : Prop where
  pc : u.pc = s.pc := by rfl
  keys : u.keys = s.keys := by rfl
  invalid : u.invalid = s.invalid := by rfl
  halt : u.halt = s.halt := by rfl
  delay : u.delay = delayWritten i s := by rfl
  sound : u.sound = soundWritten i s := by rfl
  display : displayKept s u ∨ i = .clearScreen ∨ ∃ x y n, i = .draw x y n := by exact .inl ⟨rfl, rfl⟩
  mem : u.mem = s.mem ∨
      (∃ x, i = .storeBcd x ∨ i = .storeRegs x) ∧ ∃ a bs, memFits a bs.length = true ∧ u.mem = cellWrites s.mem a bs := by
    exact .inl rfl
  stack : stackKept s u ∨ i = .ret ∧ popped s u ∨ (∃ nnn, i = .call nnn) ∧ pushed s u := by exact .inl ⟨rfl, rfl⟩
  index : u.index = s.index ∨ (∃ nnn, i = .setIndex nnn) ∨
      ∃ x, i = .addIndex x ∨ i = .loadGlyphAddr x ∨ i = .storeRegs x ∨ i = .loadRegs x := by exact .inl rfl
  target : ∀ w, o = .jump w → w.toNat ≤ 0x10FE ∨ ∃ k entry, k < 16 ∧ s.stack[k]? = some entry ∧ w = entry + 2#16 := by
    exact nofun
  stall : o = .stallWait → (∃ x, i = .waitKey x) ∧ firstKey s = none := by exact nofun

/-- The ends a form can have. -/
inductive FormEnd (i : Instr) (s : State) : StepResult → Prop
  /-- the form is executed, and the step's end follows -/
  | completes (o : FormOutcome) (u : State) (body : FormBody i s o u) : FormEnd i s (.next (finish o u))
  /-- a halting fault that is not the fetch's, with the info of `60_exceptions.md` R241 -/
  | raises (k : HaltKind) (n : Word) (hk : k ≠ .fetchBound) (info : infoOk ⟨k, s.pc, some (encode i), n⟩) :
      FormEnd i s (.next (raiseFault k n (some (encode i)) s))
  /-- the model stops, in a state `10_state.md` R25 rules out -/
  | stops (sp : 16 < s.sp.toNat) : FormEnd i s (.fault .stackEntryAbsent)

theorem raiseMemBound_end (i : Instr) (s : State) : FormEnd i s (raiseMemBound i s) :=
  .raises .memBound _ nofun (memBoundInfo_ge s.index)

theorem execRet_end (s : State) : FormEnd .ret s (execRet s) := by
  unfold execRet
  split
  · exact .raises .stackUnderflow 0#16 nofun rfl
  next hsp =>
    rcases popEntry_cases s with ⟨hge, h⟩ | ⟨entry, hlt, hentry, h⟩ <;> rw [h]
    · exact .stops (by bv_omega)
    · exact .completes (.jump (entry + 2#16)) { s with sp := s.sp - 1#8 }
        { stack := .inr (.inl ⟨rfl, hsp, rfl, hlt, rfl⟩)
          target := fun w hw => .inr ⟨_, entry, hlt, hentry, by cases hw; rfl⟩ }

theorem execCall_end (nnn : Addr) (s : State) : FormEnd (.call nnn) s (execCall nnn s) := by
  unfold execCall
  split
  · exact .raises .stackOverflow 16#16 nofun rfl
  next hsp =>
    rcases pushPc_cases s with ⟨hge, h⟩ | ⟨hlt, h⟩ <;> rw [h]
    · exact .stops (by bv_omega)
    · exact .completes (.jump (addrOperand nnn)) _
        { stack := .inr (.inr ⟨⟨nnn, rfl⟩, hlt, rfl, rfl⟩)
          target := fun w hw => .inl (by cases hw; rw [addrOperand_toNat]; omega) }

theorem execDraw_end (x y n : Nibble) (s : State) : FormEnd (.draw x y n) s (execDraw x y n s) := by
  unfold execDraw
  cases loadBlock s.index.toNat n.toNat s with
  | none => exact raiseMemBound_end _ s
  | some rows => exact .completes .next _ { display := .inr (.inr ⟨x, y, n, rfl⟩) }

/-- A key skip on a register above 0xF. -/
theorem raiseKeyRange_end (i : Instr) (s : State) {v : Byte} (hv : 16 ≤ v.toNat) :
    FormEnd i s (raise .keyRange (wideByte v) i s) := by
  have := v.isLt
  exact .raises .keyRange _ nofun ⟨by rw [wideByte_toNat]; omega, by rw [wideByte_toNat]; omega⟩

theorem execSkipKeyPressed_end (x : Nibble) (s : State) : FormEnd (.skipKeyPressed x) s (execSkipKeyPressed x s) := by
  unfold execSkipKeyPressed
  rcases keyLevel_cases (getV x s).toNat s with ⟨hge, h⟩ | ⟨b, -, h⟩ <;> rw [h]
  · exact raiseKeyRange_end _ s hge
  · exact .completes (.skip b) s {}

theorem execSkipKeyNotPressed_end (x : Nibble) (s : State) :
    FormEnd (.skipKeyNotPressed x) s (execSkipKeyNotPressed x s) := by
  unfold execSkipKeyNotPressed
  rcases keyLevel_cases (getV x s).toNat s with ⟨hge, h⟩ | ⟨b, -, h⟩ <;> rw [h]
  · exact raiseKeyRange_end _ s hge
  · exact .completes (.skip !b) s {}

theorem execWaitKey_end (x : Nibble) (s : State) : FormEnd (.waitKey x) s (execWaitKey x s) := by
  unfold execWaitKey
  cases h : firstKey s with
  | none => exact .completes .stallWait s { stall := fun _ => ⟨⟨x, rfl⟩, h⟩ }
  | some k => exact .completes .next _ {}

theorem execStoreBcd_end (x : Nibble) (s : State) : FormEnd (.storeBcd x) s (execStoreBcd x s) := by
  unfold execStoreBcd storeBcd
  rcases storeBlock_cases s.index.toNat (bcdBytes bcdOrder (getV x s)) s with ⟨-, h⟩ | ⟨hf, h⟩ <;> rw [h]
  · exact raiseMemBound_end _ s
  · exact .completes .next _ { mem := .inr ⟨⟨x, .inl rfl⟩, _, _, hf, rfl⟩ }

theorem execStoreRegs_end (x : Nibble) (s : State) : FormEnd (.storeRegs x) s (execStoreRegs x s) := by
  unfold execStoreRegs
  rcases storeBlock_cases s.index.toNat (blockRegs x s) s with ⟨-, h⟩ | ⟨hf, h⟩ <;> rw [h]
  · exact raiseMemBound_end _ s
  · exact .completes .next _
      { mem := .inr ⟨⟨x, .inr rfl⟩, _, _, hf, rfl⟩, index := .inr (.inr ⟨x, .inr (.inr (.inl rfl))⟩) }

theorem execLoadRegs_end (x : Nibble) (s : State) : FormEnd (.loadRegs x) s (execLoadRegs x s) := by
  unfold execLoadRegs
  cases loadBlock s.index.toNat (blockSize x) s with
  | none => exact raiseMemBound_end _ s
  | some bytes => exact .completes .next _ { index := .inr (.inr ⟨x, .inr (.inr (.inr rfl))⟩) }

/-- Everything a form can do. -/
theorem exec_end (i : Instr) (s : State) : FormEnd i s (exec i s) := by
  cases i with
  | ret => exact execRet_end s
  | call nnn => exact execCall_end nnn s
  | draw x y n => exact execDraw_end x y n s
  | skipKeyPressed x => exact execSkipKeyPressed_end x s
  | skipKeyNotPressed x => exact execSkipKeyNotPressed_end x s
  | waitKey x => exact execWaitKey_end x s
  | storeBcd x => exact execStoreBcd_end x s
  | storeRegs x => exact execStoreRegs_end x s
  | loadRegs x => exact execLoadRegs_end x s
  | clearScreen => exact .completes .next _ { display := .inr (.inl rfl) }
  | jump nnn =>
    exact .completes _ s { target := fun w hw => .inl (by cases hw; rw [addrOperand_toNat]; omega) }
  | jumpOffset nnn =>
    have := (getV 0#4 s).isLt
    exact .completes _ s { target := fun w hw => .inl (by cases hw; rw [offsetTarget_toNat]; omega) }
  | setIndex nnn => exact .completes .next _ { index := .inr (.inl ⟨nnn, rfl⟩) }
  | addIndex x => exact .completes .next _ { index := .inr (.inr ⟨x, .inl rfl⟩) }
  | loadGlyphAddr x => exact .completes .next _ { index := .inr (.inr ⟨x, .inr (.inl rfl)⟩) }
  | skipEqImm | skipNeImm | skipEqReg | skipNeReg => exact .completes (.skip _) s {}
  | loadImm | addImm | loadReg | or | and | xor | addReg | subReg | shiftRight | subnReg | shiftLeft | random | loadDelay
  | setDelay | setSound => exact .completes .next _ {}

/-! ## What a step can do -/

/-- Everything a step can do (`40_step_cycle.md` R100): a halted core, a fetch above 0xFFE, an instruction, an unrecognized word. -/
theorem step_cases (s : State) :
    (s.halt ≠ none ∧ step s = .next (noTone s)) ∨
      s.halt = none ∧
        (0xFFE < s.pc.toNat ∧ step s = .next (raiseFault .fetchBound s.pc none s) ∨
          s.pc.toNat ≤ 0xFFE ∧ ∃ w, fetch s = some w ∧
            ((∃ i, decode w = some i ∧ step s = exec i s) ∨
              decode w = none ∧ step s = .next (timerUpdate (recordInvalid w s)))) := by
  unfold step
  cases hh : s.halt with
  | some h => exact .inl ⟨nofun, rfl⟩
  | none =>
    rcases fetch_cases s with ⟨hpc, hf⟩ | ⟨hpc, hf⟩ <;> rw [hf]
    · exact .inr ⟨rfl, .inl ⟨hpc, rfl⟩⟩
    · refine .inr ⟨rfl, .inr ⟨hpc, _, rfl, ?_⟩⟩
      cases hd : decode (memByte s s.pc.toNat ++ memByte s (s.pc.toNat + 1)) with
      | some i => exact .inl ⟨i, rfl, by simp only [hd]⟩
      | none => exact .inr ⟨rfl, by simp only [hd]; rfl⟩

/-! ## What an operation of the host can do -/

/-- What an operation of the host that is answered can change: a step's effect, the bytes of a program, the latch or the redraw flag
(`60_exceptions.md` R255). -/
theorem hostOp_cases {op : HostOp} {s t : State} {r : HostResult} (h : hostOp op s = .next (r, t)) :
    step s = .next t ∨ t = s ∨
      (∃ bytes, bytes.length ≤ maxProgram ∧ t = { s with mem := cellWrites s.mem loadBase bytes }) ∨
      (∃ keys, t = { s with keys := keys }) ∨ t = { s with redraw := false } := by
  cases op with
  | step =>
    simp only [hostOp, hostStep] at h
    split at h
    next u hu => cases h; exact .inl hu
    all_goals cases h
  | load bytes =>
    simp only [hostOp, hostLoad] at h
    split at h
    next hl => cases h; exact .inr (.inr (.inl ⟨bytes, hl, rfl⟩))
    next => cases h; exact .inr (.inl rfl)
  | loadUnreadable => cases h; exact .inr (.inl rfl)
  | setKey k pressed =>
    simp only [hostOp, hostSetKey] at h
    split at h
    · cases h; exact .inr (.inr (.inr (.inl ⟨_, rfl⟩)))
    · cases h
  | queryFramebuffer => cases h; exact .inr (.inr (.inr (.inr rfl)))
  | queryFaults => cases h; exact .inr (.inl rfl)

/-! ## The invariant: what a completed form keeps of each part -/

section
variable {i : Instr} {s u : State} {o : FormOutcome}

/-- What a form stores is a block that fits, so memory stays in canonical form. -/
theorem FormBody.mem_wf (b : FormBody i s o u) (h : s.mem.wf = true) : u.mem.wf = true := by
  rcases b.mem with hm | ⟨-, a, bs, hf, hm⟩ <;> rw [hm]
  · exact h
  · exact cellWrites_wf h hf

/-- Taking an entry off, or putting the address of a fetched instruction on, keeps the stack legal. -/
theorem FormBody.stack_ok (b : FormBody i s o u) (h : stackOk s) (hpc : s.pc.toNat ≤ 0xFFE) : stackOk u := by
  obtain ⟨hle, hentries⟩ := h
  rcases b.stack with ⟨hsp, hst⟩ | ⟨-, -, -, hlt, hst⟩ | ⟨-, hlt, hsp, hst⟩
  · exact ⟨by rwa [hsp], by rwa [hst]⟩
  · exact ⟨hlt.le, by rwa [hst]⟩
  · refine ⟨by rw [hsp]; bv_omega, fun k hk w hw => ?_⟩
    rw [hst, Vector.getElem?_setIfInBounds] at hw
    split at hw
    · cases hw; exact hpc
    · exact hentries k hk w hw

/-- The pc after a form fetched at most at 0xFFE: a skip goes 4 on, a return 2 past a stack entry. -/
theorem FormBody.pc_le (b : FormBody i s o u) (h : stackOk s) (hpc : s.pc.toNat ≤ 0xFFE) :
    (finish o u).pc.toNat ≤ 0x10FE := by
  have hu := b.pc
  rw [finish_pc]
  cases o with
  | next => rw [updatePc_next, hu]; bv_omega
  | skip c =>
    have : (if c then 4#16 else 2#16 : Word).toNat ≤ 4 := by cases c <;> decide
    rw [updatePc_skip, hu, BitVec.toNat_add]; omega
  | stallWait | stallInvalid => rw [updatePc, hu]; omega
  | jump w =>
    rw [updatePc_jump]
    rcases b.target w rfl with hw | ⟨k, entry, hk, hentry, rfl⟩
    · exact hw
    · have := h.2 k hk entry hentry
      bv_omega

/-- A completed form keeps the invariant. -/
theorem FormBody.finish_inv (b : FormBody i s o u) (hs : Inv s) (hh : s.halt = none) (hpc : s.pc.toNat ≤ 0xFFE) :
    Inv (finish o u) := by
  obtain ⟨hmem, hstack, -, -, hinvalid⟩ := hs
  refine ⟨?_, ?_, b.pc_le hstack hpc, ?_, ?_⟩
  · rw [finish_mem]; exact b.mem_wf hmem
  · simpa [stackOk] using b.stack_ok hstack hpc
  · simp [haltOk, b.halt, hh]
  · simpa [invalidOk, b.invalid] using hinvalid

end

/-! ## The invariant: faults, the unrecognized word, steps and operations of the host -/

/-- A halting fault keeps the invariant if its record is as `60_exceptions.md` R241, R244 say. -/
theorem inv_raiseFault {s : State} (hs : Inv s) {k : HaltKind} {n : Word} {w : Option Word} (info : infoOk ⟨k, s.pc, w, n⟩)
    (absent : w = none ↔ k = .fetchBound) (decodes : ∀ v, w = some v → decode v ≠ none) : Inv (raiseFault k n w s) := by
  obtain ⟨hmem, hstack, hpc, -, hinvalid⟩ := hs
  refine ⟨hmem, hstack, hpc, fun h hh => ?_, hinvalid⟩
  cases hh
  exact ⟨rfl, info, absent, decodes⟩

/-- Recording a word of no form at an address a fetch can read keeps the invariant. -/
theorem inv_recordInvalid {s : State} (hs : Inv s) {w : Word} (hw : decode w = none) (hpc : s.pc.toNat ≤ 0xFFE) :
    Inv (recordInvalid w s) := by
  obtain ⟨hmem, hstack, hle, hhalt, hinvalid⟩ := hs
  refine ⟨by simpa using hmem, by simpa [stackOk] using hstack, by simpa using hle, by simpa [haltOk] using hhalt,
    fun r hr => ?_⟩
  rw [recordInvalid_invalid] at hr
  cases hi : s.invalid with
  | none => rw [hi] at hr; cases hr; exact ⟨hw, hpc⟩
  | some r' => rw [hi] at hr; cases hr; exact hinvalid r' hi

theorem exec_inv {i : Instr} {s t : State} (hs : Inv s) (hh : s.halt = none) (hpc : s.pc.toNat ≤ 0xFFE)
    (h : exec i s = .next t) : Inv t := by
  cases h ▸ exec_end i s with
  | completes o u body => exact body.finish_inv hs hh hpc
  | raises k n hk info => exact inv_raiseFault hs info (by simp [hk]) fun v hv => by cases hv; simp [decode_encode]

/-- A step of a halted core or one whose fetch faults writes at most the halt record and the tone, one on an unrecognized word only the
invalid record and the timers. -/
theorem step_inv {s t : State} (hs : Inv s) (h : step s = .next t) : Inv t := by
  rcases step_cases s with ⟨-, he⟩ | ⟨hh, ⟨hpc, he⟩ | ⟨hpc, w, -, ⟨i, -, he⟩ | ⟨hw, he⟩⟩⟩ <;> rw [he] at h
  · cases h; exact hs
  · cases h; exact inv_raiseFault hs ⟨rfl, hpc⟩ (by simp) nofun
  · exact exec_inv hs hh hpc h
  · cases h; exact inv_recordInvalid hs hw hpc

/-- A program that is accepted fits below the end of memory. -/
theorem hostOp_inv {op : HostOp} {s t : State} {r : HostResult} (hs : Inv s) (h : hostOp op s = .next (r, t)) : Inv t := by
  rcases hostOp_cases h with h | rfl | ⟨bytes, hl, rfl⟩ | ⟨keys, rfl⟩ | rfl
  · exact step_inv hs h
  · exact hs
  · have fits : memFits loadBase bytes.length = true := by
      rw [memFits_iff]; simp only [loadBase, maxProgram] at hl ⊢; omega
    obtain ⟨hmem, hrest⟩ := hs
    exact ⟨cellWrites_wf hmem fits, hrest⟩
  · exact hs
  · exact hs

theorem reset_stack {k : Nat} (hk : k < 16) : State.reset.stack[k]? = some 0 := by simp [State.reset, hk]

theorem reset_inv : Inv State.reset := by
  refine ⟨reset_mem_wf, ⟨by decide, fun k hk w hw => ?_⟩, by decide, nofun, nofun⟩
  rw [reset_stack hk] at hw
  cases hw; decide

/-! ## No step stops, and no record is lost -/

/-- A form has a next state unless the stack pointer is above 16. -/
theorem FormEnd.next {i : Instr} {s : State} {r : StepResult} (e : FormEnd i s r) (hsp : s.sp.toNat ≤ 16) : ∃ t, r = .next t := by
  cases e with
  | completes o u body => exact ⟨_, rfl⟩
  | raises k n hk info => exact ⟨_, rfl⟩
  | stops hgt => omega

theorem step_next {s : State} (hsp : s.sp.toNat ≤ 16) : ∃ t, step s = .next t := by
  rcases step_cases s with ⟨-, he⟩ | ⟨-, ⟨-, he⟩ | ⟨-, w, -, ⟨i, -, he⟩ | ⟨-, he⟩⟩⟩
  · exact ⟨_, he⟩
  · exact ⟨_, he⟩
  · rw [he]; exact (exec_end i s).next hsp
  · exact ⟨_, he⟩

/-- A form leaves the input latch and the invalid record, whether it completes or faults. -/
theorem exec_keys_invalid {i : Instr} {s t : State} (h : exec i s = .next t) : t.keys = s.keys ∧ t.invalid = s.invalid := by
  cases h ▸ exec_end i s with
  | completes o u body => exact ⟨by rw [finish_keys, body.keys], by rw [finish_invalid, body.invalid]⟩
  | raises => exact ⟨rfl, rfl⟩

/-- A core with a halt record is not stepped, so the record stays. -/
theorem step_halt_kept {s t : State} (h : step s = .next t) (hh : s.halt ≠ none) : t.halt = s.halt := by
  rcases step_cases s with ⟨-, he⟩ | ⟨hn, -⟩
  · rw [he] at h; cases h; rfl
  · exact absurd hn hh

/-- An invalid record is written only where there is none. -/
theorem step_invalid_kept {s t : State} {v : InvalidRecord} (h : step s = .next t) (hv : s.invalid = some v) :
    t.invalid = some v := by
  rcases step_cases s with ⟨-, he⟩ | ⟨-, ⟨-, he⟩ | ⟨-, w, -, ⟨i, -, he⟩ | ⟨-, he⟩⟩⟩ <;> rw [he] at h
  · cases h; exact hv
  · cases h; exact hv
  · rw [(exec_keys_invalid h).2, hv]
  · cases h; rw [timerUpdate_invalid, recordInvalid_invalid, hv, Option.getD_some]

/-! ## Which forms write what -/

theorem exec_memKept {i : Instr} {s t : State} (h : exec i s = .next t) (hbcd : ∀ x, i ≠ .storeBcd x)
    (hregs : ∀ x, i ≠ .storeRegs x) : memKept s t := by
  cases h ▸ exec_end i s with
  | raises => exact memKept_of_mem rfl
  | completes o u body =>
    rcases body.mem with hm | ⟨⟨x, hi | hi⟩, -⟩
    · exact memKept_of_mem (by rw [finish_mem, hm])
    · exact absurd hi (hbcd x)
    · exact absurd hi (hregs x)

theorem exec_displayKept {i : Instr} {s t : State} (h : exec i s = .next t) (hclear : i ≠ .clearScreen)
    (hdraw : ∀ x y n, i ≠ .draw x y n) : displayKept s t := by
  cases h ▸ exec_end i s with
  | raises => exact ⟨rfl, rfl⟩
  | completes o u body =>
    rcases body.display with ⟨hfb, hr⟩ | hi | ⟨x, y, n, hi⟩
    · exact ⟨by rw [finish_fb, hfb], by rw [finish_redraw, hr]⟩
    · exact absurd hi hclear
    · exact absurd hi (hdraw x y n)

theorem exec_stackKept {i : Instr} {s t : State} (h : exec i s = .next t) (hret : i ≠ .ret) (hcall : ∀ nnn, i ≠ .call nnn) :
    stackKept s t := by
  cases h ▸ exec_end i s with
  | raises => exact ⟨rfl, rfl⟩
  | completes o u body =>
    rcases body.stack with ⟨hsp, hst⟩ | ⟨hi, -⟩ | ⟨⟨nnn, hi⟩, -⟩
    · exact ⟨by rw [finish_sp, hsp], by rw [finish_stack, hst]⟩
    · exact absurd hi hret
    · exact absurd hi (hcall nnn)

theorem exec_index_kept {i : Instr} {s t : State} (h : exec i s = .next t) (hset : ∀ nnn, i ≠ .setIndex nnn)
    (hadd : ∀ x, i ≠ .addIndex x) (hglyph : ∀ x, i ≠ .loadGlyphAddr x) (hstore : ∀ x, i ≠ .storeRegs x)
    (hload : ∀ x, i ≠ .loadRegs x) : t.index = s.index := by
  cases h ▸ exec_end i s with
  | raises => rfl
  | completes o u body =>
    rcases body.index with hx | ⟨nnn, hi⟩ | ⟨x, hi | hi | hi | hi⟩
    · rw [finish_index, hx]
    · exact absurd hi (hset nnn)
    · exact absurd hi (hadd x)
    · exact absurd hi (hglyph x)
    · exact absurd hi (hstore x)
    · exact absurd hi (hload x)

/-! ## The reset memory -/

/-- At reset every address reads as its content at initialization: the glyph table, then zero. -/
theorem memByte_reset (a : Nat) : memByte State.reset a = (glyphs[a]?).getD 0 := rfl

theorem glyphs_getElem? {a : Nat} (h : a ≤ 0x04F) : glyphs[a]? = some (memByte State.reset a) := by
  have ha : a < glyphs.length := Nat.lt_succ_of_le h
  rw [memByte_reset, List.getElem?_eq_getElem ha, Option.getD_some]

theorem memByte_reset_beyond_glyphs {a : Nat} (h : 0x050 ≤ a) : memByte State.reset a = 0 := by
  rw [memByte_reset, List.getElem?_eq_none h, Option.getD_none]

/-! ## The statements -/

/-- Settles O13, by the cases of a step; a form keeps each part of the invariant by what it can write (`FormBody`). -/
theorem everyStepKeepsInv : Obligations.EveryStepKeepsInv := fun _ _ hs h => step_inv hs h

/-- Settles O14: an operation that is no step writes at most the program bytes, which fit, the latch or the redraw flag. -/
theorem everyHostOperationKeepsInv : Obligations.EveryHostOperationKeepsInv := fun _ _ _ _ hs h => hostOp_inv hs h

/-- Settles O16: the model stops only in `call` and `return` with `sp` above 16, which the invariant rules out. -/
theorem everyStepAnswersNext : Obligations.EveryStepAnswersNext := by
  rintro s ⟨-, ⟨hsp, -⟩, -⟩
  exact step_next hsp

/-- Settles O18: a core with a halt record is not stepped, an invalid record is written only where there is none, and no operation but a
step writes either. -/
theorem faultRecordsStay : Obligations.FaultRecordsStay := by
  intro op s r t h
  rcases hostOp_cases h with h | rfl | ⟨bytes, -, rfl⟩ | ⟨keys, rfl⟩ | rfl
  · exact ⟨fun _ hh => (step_halt_kept h (by simp [hh])).trans hh, fun _ hv => step_invalid_kept h hv⟩
  all_goals exact ⟨fun _ hh => hh, fun _ hv => hv⟩

/-- Settles O19: a fault writes the halt record alone, and of the bodies only the named forms' touch memory or display. -/
theorem onlyTheseFormsWriteMemoryOrDisplay : Obligations.OnlyTheseFormsWriteMemoryOrDisplay :=
  fun _ _ _ h => ⟨exec_memKept h, exec_displayKept h⟩

/-- Settles O20: a fault writes the halt record alone, and of the bodies only the named forms' touch the stack or `I`. -/
theorem onlyTheseFormsWriteStackOrIndex : Obligations.OnlyTheseFormsWriteStackOrIndex :=
  fun _ _ _ h => ⟨exec_stackKept h, exec_index_kept h⟩

/-- Settles O22: no body of a form touches the latch or the invalid record, nor does a fault or the end of a step. -/
theorem formsNeverWriteKeysOrInvalid : Obligations.FormsNeverWriteKeysOrInvalid := fun _ _ _ h => exec_keys_invalid h

/-- Settles O1: memory lists nothing at reset, so it reads as the glyph table and then zero; every other field is a literal. -/
theorem resetHoldsTheSpecsValues : Obligations.ResetHoldsTheSpecsValues := by
  refine ⟨fun r => ?_, rfl, rfl, rfl, fun _ => reset_stack, rfl, rfl, fun _ => glyphs_getElem?, fun _ => memByte_reset_beyond_glyphs,
    fun r c => fbGet_fbClear r c, rfl, fun k hk => ?_, rfl, rfl⟩
  · simp [getV, State.reset]
  · simp [keyLevel, State.reset, hk]

/-- Settles O15: nothing is listed, stacked or recorded, and the pc is 0x200. -/
theorem resetHasInv : Obligations.ResetHasInv := reset_inv

end Sys2Proof.Machine
end

section
/-! PROOFS. Fetch and block store as equations where no fault stops them, and the statements about memory (spec/20_memory.md) that follow:
a step runs the word at the pc, and a fetch sees what the instruction before it stored. -/

namespace Sys2Proof.Machine

/-! ## The fetch below its bound -/

theorem fetch_of_pc_le {s : State} (h : s.pc.toNat ≤ 0xFFE) :
    fetch s = some (memByte s s.pc.toNat ++ memByte s (s.pc.toNat + 1)) :=
  if_neg (Nat.not_lt.2 h)

theorem step_of_fetch_of_decode {s : State} {w : Word} {i : Instr} (hh : s.halt = none) (hf : fetch s = some w)
    (hd : decode w = some i) : step s = exec i s := by
  simp only [step, hh, hf, hd]

/-! ## A block of registers stored in memory -/

/-- `s` with `V[0..x]` in memory from `I` on and the new `I`, before the step's end (`43_index_memory.md` R185). -/
def regsStored (x : Nibble) (s : State) : State :=
  setIndexReg (blockIndex x) { s with mem := cellWrites s.mem s.index.toNat (blockRegs x s) }

@[simp] theorem regsStored_pc (x : Nibble) (s : State) : (regsStored x s).pc = s.pc := rfl

@[simp] theorem regsStored_mem (x : Nibble) (s : State) :
    (regsStored x s).mem = cellWrites s.mem s.index.toNat (blockRegs x s) := rfl

/-- `store-regs` completes where its last byte exists. -/
theorem exec_storeRegs_of_le {x : Nibble} {s : State} (h : s.index.toNat + x.toNat ≤ 0xFFF) :
    exec (.storeRegs x) s = .next (finish .next (regsStored x s)) := by
  have fits : memFits s.index.toNat (blockRegs x s).length = true := by
    rw [memFits_iff, length_blockRegs]; omega
  have stores : storeBlock s.index.toNat (blockRegs x s) s =
      some { s with mem := cellWrites s.mem s.index.toNat (blockRegs x s) } := if_pos fits
  change execStoreRegs x s = _
  rw [execStoreRegs, stores]; rfl

/-- Each register of the block is the byte at its own offset from `I`. -/
theorem memByte_regsStored {x k : Nibble} (h : k.toNat ≤ x.toNat) (s : State) :
    memByte (regsStored x s) (s.index.toNat + k.toNat) = getV k s := by
  rw [memByte, regsStored_mem, cellRead_cellWrites, if_pos (Nat.le_add_right ..), Nat.add_sub_cancel_left,
    getElem?_blockRegs x k s h, Option.getD_some]

/-! ## The statements -/

/-- Settles O9: below the bound the fetch answers the word at the pc, and `exec` is all that follows its decoding. -/
theorem stepRunsTheDecodedInstruction : Obligations.StepRunsTheDecodedInstruction :=
  fun _ _ hh hpc hd => step_of_fetch_of_decode hh (fetch_of_pc_le hpc) hd

/-- Settles O23: the next pc is the address `V[p]` was stored at, the byte after it is `V[q]`, and the step's end leaves memory alone. -/
theorem nextFetchSeesStoredWord : Obligations.NextFetchSeesStoredWord := by
  intro x s p q hfits hq hqx hpc
  refine ⟨_, exec_storeRegs_of_le hfits, ?_⟩
  have pc_next : (finish .next (regsStored x s)).pc.toNat = s.index.toNat + p.toNat := by
    rw [finish_pc, updatePc_next, regsStored_pc]; bv_omega
  have byte (k : Nibble) (hk : k.toNat ≤ x.toNat) :
      memByte (finish .next (regsStored x s)) (s.index.toNat + k.toNat) = getV k s := by
    rw [memByte_congr (finish_mem ..), memByte_regsStored hk]
  rw [fetch_of_pc_le (by omega), pc_next, byte p (by omega), Nat.add_assoc, ← hq, byte q hqx]

end Sys2Proof.Machine
end

section
/-! PROOFS. The encoding (spec/30_encoding.md): a decoded instruction's word is the word read (`encode_of_decode`), a row of the
opcode table covers exactly the words of its form (`covers_opcodeRow_iff`), which keys each group's decoder rejects, what a form that is a
skip alone leaves (`exec_skip`), and the statements that follow. -/

namespace Sys2Proof

open Sys2Proof.Laws

/-! ## The word of a decoded instruction -/

theorem word_eq_of_group_A {w : Word} {g : Nat} (h : (wordGroup w).toNat = g) : BitVec.ofNat 4 g ++ fieldNNN w = w := by
  rw [← h, BitVec.ofNat_toNat, BitVec.setWidth_eq, word_eq_fields_A]

theorem word_eq_of_group_XK {w : Word} {g : Nat} (h : (wordGroup w).toNat = g) :
    BitVec.ofNat 4 g ++ fieldX w ++ fieldKK w = w := by
  rw [← h, BitVec.ofNat_toNat, BitVec.setWidth_eq, word_eq_fields_XK]

theorem word_eq_of_group_XYN {w : Word} {g : Nat} (h : (wordGroup w).toNat = g) :
    BitVec.ofNat 4 g ++ fieldX w ++ fieldY w ++ fieldN w = w := by
  rw [← h, BitVec.ofNat_toNat, BitVec.setWidth_eq, word_eq_fields_XYN]

theorem encode_of_decodeGroup0 {key : Addr} {i : Instr} (h : decodeGroup0 key = some i) : encode i = 0x0#4 ++ key := by
  unfold decodeGroup0 at h
  split_ifs at h <;> cases h <;> subst key <;> rfl

theorem encode_of_decodeGroup8 {key x y : Nibble} {i : Instr} (h : decodeGroup8 key x y = some i) :
    encode i = 0x8#4 ++ x ++ y ++ key := by
  have key_of {k : Nat} (hk : key.toNat = k) : key = BitVec.ofNat 4 k := by simp [← hk]
  unfold decodeGroup8 at h
  split at h <;> cases h <;> next hk => rw [key_of hk]; rfl

theorem encode_of_decodeGroupE {key : Byte} {x : Nibble} {i : Instr} (h : decodeGroupE key x = some i) :
    encode i = 0xE#4 ++ x ++ key := by
  unfold decodeGroupE at h
  split_ifs at h <;> cases h <;> subst key <;> rfl

theorem encode_of_decodeGroupF {key : Byte} {x : Nibble} {i : Instr} (h : decodeGroupF key x = some i) :
    encode i = 0xF#4 ++ x ++ key := by
  unfold decodeGroupF at h
  split_ifs at h <;> cases h <;> subst key <;> rfl

/-- Decoding drops no bit: each group's arm reads all the fields of its format (`30_encoding.md` R71, R72). -/
theorem encode_of_decode {w : Word} {i : Instr} (h : decode w = some i) : encode i = w := by
  have hlt := (wordGroup w).isLt
  unfold decode at h
  match hg : (wordGroup w).toNat, h with
  | 0x0, h => exact (encode_of_decodeGroup0 h).trans (word_eq_of_group_A hg)
  | 0x8, h => exact (encode_of_decodeGroup8 h).trans (word_eq_of_group_XYN hg)
  | 0xE, h => exact (encode_of_decodeGroupE h).trans (word_eq_of_group_XK hg)
  | 0xF, h => exact (encode_of_decodeGroupF h).trans (word_eq_of_group_XK hg)
  | 0x1, h | 0x2, h | 0xA, h | 0xB, h => cases h; exact word_eq_of_group_A hg
  | 0x3, h | 0x4, h | 0x6, h | 0x7, h | 0xC, h => cases h; exact word_eq_of_group_XK hg
  | 0x5, h | 0x9, h | 0xD, h => cases h; exact word_eq_of_group_XYN hg
  | g + 16, _ => omega

/-! ## The rows of the opcode table -/

theorem wordGroup_and (w m : Word) : wordGroup (w &&& m) = wordGroup w &&& wordGroup m := BitVec.extractLsb'_and

theorem fieldN_and (w m : Word) : fieldN (w &&& m) = fieldN w &&& fieldN m := BitVec.extractLsb'_and

theorem fieldKK_and (w m : Word) : fieldKK (w &&& m) = fieldKK w &&& fieldKK m := BitVec.extractLsb'_and

/-! The fields of a mask or a pattern written out, which `simp` then evaluates without opening a variable word's fields. -/

theorem wordGroup_ofNat (k : Nat) : wordGroup (BitVec.ofNat 16 k) = (BitVec.ofNat 16 k).extractLsb' 12 4 := rfl

theorem fieldN_ofNat (k : Nat) : fieldN (BitVec.ofNat 16 k) = (BitVec.ofNat 16 k).extractLsb' 0 4 := rfl

theorem fieldKK_ofNat (k : Nat) : fieldKK (BitVec.ofNat 16 k) = (BitVec.ofNat 16 k).extractLsb' 0 8 := rfl

/-- An instruction's word lies in the instruction's row, form by form in the table's order. -/
theorem covers_encode (i : Instr) : (opcodeRow i).covers (encode i) = true := by
  cases i
  exacts [RowCovers.clearScreen, RowCovers.ret, RowCovers.jump _, RowCovers.call _, RowCovers.skipEqImm .., RowCovers.skipNeImm ..,
    RowCovers.skipEqReg .., RowCovers.skipNeReg .., RowCovers.loadImm .., RowCovers.addImm .., RowCovers.loadReg .., RowCovers.or ..,
    RowCovers.and .., RowCovers.xor .., RowCovers.addReg .., RowCovers.subReg .., RowCovers.shiftRight .., RowCovers.subnReg ..,
    RowCovers.shiftLeft .., RowCovers.setIndex _, RowCovers.jumpOffset _, RowCovers.random .., RowCovers.draw ..,
    RowCovers.skipKeyPressed _, RowCovers.skipKeyNotPressed _, RowCovers.loadDelay _, RowCovers.waitKey _, RowCovers.setDelay _,
    RowCovers.setSound _, RowCovers.addIndex _, RowCovers.loadGlyphAddr _, RowCovers.storeBcd _, RowCovers.storeRegs _,
    RowCovers.loadRegs _]

/-- The mask of a row fixes the group and the key of a word it covers, so the word decodes to the row's form. -/
theorem opcodeRow_decode_of_covers {w : Word} {j : Instr} (h : (opcodeRow j).covers w = true) :
    (decode w).map opcodeRow = some (opcodeRow j) := by
  have hw : w &&& (opcodeRow j).mask = (opcodeRow j).pattern := beq_iff_eq.1 h
  have group := congrArg wordGroup hw
  have nibble := congrArg fieldN hw
  have byte := congrArg fieldKK hw
  have nibble_ones (a : Nibble) : a &&& 0xF#4 = a := BitVec.and_allOnes
  have byte_ones (a : Byte) : a &&& 0xFF#8 = a := BitVec.and_allOnes
  cases j with
  | clearScreen | ret => obtain rfl := (BitVec.and_allOnes (x := w)).symm.trans hw; rfl
  | _ =>
    simp only [opcodeRow, wordGroup_and, fieldN_and, fieldKK_and, wordGroup_ofNat, fieldN_ofNat, fieldKK_ofNat,
      BitVec.reduceExtractLsb', nibble_ones, byte_ones] at group nibble byte
    simp [decode, group, nibble, byte, decodeGroup8, decodeGroupE, decodeGroupF, opcodeRow]

/-- A row covers exactly the words that decode to its form (`30_encoding.md` R80). -/
theorem covers_opcodeRow_iff (j : Instr) (w : Word) :
    (opcodeRow j).covers w = true ↔ (decode w).map opcodeRow = some (opcodeRow j) := by
  refine ⟨opcodeRow_decode_of_covers, fun h => ?_⟩
  obtain ⟨i, hd, hrow⟩ := Option.map_eq_some_iff.1 h
  rw [← hrow, ← encode_of_decode hd]
  exact covers_encode i

theorem covers_iff_of_mem {row : OpcodeRow} (h : row ∈ opcodeRows) (w : Word) :
    row.covers w = true ↔ (decode w).map opcodeRow = some row := by
  obtain ⟨j, -, rfl⟩ := List.mem_map.1 h
  exact covers_opcodeRow_iff j w

/-! ## The words the decoder rejects -/

theorem ite_some_eq_none_iff {α : Type} {c : Prop} [Decidable c] {a : α} {o : Option α} :
    (if c then some a else o) = none ↔ ¬ c ∧ o = none := by
  split <;> simp [*]

theorem decodeGroup0_eq_none_iff (key : Addr) : decodeGroup0 key = none ↔ key.toNat ≠ 0x0E0 ∧ key.toNat ≠ 0x0EE := by
  simp [decodeGroup0, ite_some_eq_none_iff, ← BitVec.toNat_inj]

theorem decodeGroup8_eq_none_iff (key x y : Nibble) :
    decodeGroup8 key x y = none ↔ key.toNat ∈ [0x8, 0x9, 0xA, 0xB, 0xC, 0xD, 0xF] := by
  have hlt := key.isLt
  unfold decodeGroup8
  generalize key.toNat = k at hlt ⊢
  interval_cases k <;> simp

theorem decodeGroupE_eq_none_iff (key : Byte) (x : Nibble) : decodeGroupE key x = none ↔ key.toNat ∉ [0x9E, 0xA1] := by
  simp [decodeGroupE, ite_some_eq_none_iff, ← BitVec.toNat_inj]

theorem decodeGroupF_eq_none_iff (key : Byte) (x : Nibble) :
    decodeGroupF key x = none ↔ key.toNat ∉ [0x07, 0x0A, 0x15, 0x18, 0x1E, 0x29, 0x33, 0x55, 0x65] := by
  simp [decodeGroupF, ite_some_eq_none_iff, ← BitVec.toNat_inj]

theorem wordGroup_toNat (w : Word) : (wordGroup w).toNat = w.toNat / 0x1000 := by
  simp [wordGroup]; omega

theorem fieldNNN_toNat (w : Word) : (fieldNNN w).toNat = w.toNat % 0x1000 := by simp [fieldNNN]

theorem fieldN_toNat (w : Word) : (fieldN w).toNat = w.toNat % 16 := by simp [fieldN]

theorem fieldKK_toNat (w : Word) : (fieldKK w).toNat = w.toNat % 256 := by simp [fieldKK]

end Sys2Proof

namespace Sys2Proof.Machine

open Sys2Proof.Safety

/-! ## The end of a skip -/

/-- A form that is a skip alone moves the pc by 4 or 2 and leaves all else but the timers. -/
theorem exec_skip {i : Instr} {s : State} {taken : Bool} (h : exec i s = done (.skip taken) s) :
    ∃ t, exec i s = .next t ∧ t.pc = s.pc + (if taken then 4#16 else 2#16) ∧ onlyRegs [] s t :=
  ⟨_, h, by simp, onlyRegs_finish [] s (by simp)⟩

/-! ## The statements -/

/-- Settles O3, by `decode_encode`. -/
theorem decodeOfEncode : Obligations.DecodeOfEncode := decode_encode

/-- Settles O4, by the split over the groups in `encode_of_decode`. -/
theorem encodeOfDecode : Obligations.EncodeOfDecode := fun _ _ => encode_of_decode

/-- Settles O5: a row of the table covers a word exactly when it is the row of the form the word decodes to. -/
theorem decodeFollowsTheOpcodeTable : Obligations.DecodeFollowsTheOpcodeTable := by
  refine ⟨rfl, fun w i hd row hrow => ?_, fun w hd row hrow => ?_⟩
  · simp [covers_iff_of_mem hrow, hd, eq_comm]
  · simp [← Bool.not_eq_true, covers_iff_of_mem hrow, hd]

/-- Settles O6, group by group: the four groups with a key reject by it, the twelve others reject nothing. -/
theorem exactlyTheseWordsAreUnrecognized : Obligations.ExactlyTheseWordsAreUnrecognized := by
  intro w
  have hlt := w.isLt
  unfold decode
  rw [wordGroup_toNat]
  match hg : w.toNat / 0x1000 with
  | 0x0 =>
    have key : (fieldNNN w).toNat = w.toNat := by rw [fieldNNN_toNat]; omega
    simp [decodeGroup0_eq_none_iff, key]
  | 0x8 => simp [decodeGroup8_eq_none_iff, fieldN_toNat]
  | 0xE => simp [decodeGroupE_eq_none_iff, fieldKK_toNat]
  | 0xF => simp [decodeGroupF_eq_none_iff, fieldKK_toNat]
  | 0x1 | 0x2 | 0x3 | 0x4 | 0x5 | 0x6 | 0x7 | 0x9 | 0xA | 0xB | 0xC | 0xD => simp
  | g + 16 => omega

/-- Settles O7: each word is the encoding of the instruction it decodes to. -/
theorem wordsOfEveryFamilyDecode : Obligations.WordsOfEveryFamilyDecode :=
  ⟨decode_encode (.call 0x300), decode_encode (.skipEqImm 3 0x10), decode_encode (.loadImm 3 0x7B), decode_encode (.addReg 3 4),
    decode_encode (.random 3 0x0F), decode_encode (.setIndex 0x300), decode_encode (.storeBcd 3), decode_encode (.draw 0 1 1),
    decode_encode (.loadDelay 3), decode_encode (.skipKeyPressed 3),
    (decodeTableWord_eq ..).trans (decode_encode (.skipKeyNotPressed 3))⟩

/-- Settles O8: the arms of `exec` for these forms do not mention the ignored field. -/
theorem ignoredBitsChangeNothing : Obligations.IgnoredBitsChangeNothing :=
  ⟨fun _ _ _ _ _ => rfl, fun _ _ _ _ _ => rfl, fun _ _ _ _ => rfl, fun _ _ _ _ => rfl⟩

/-- Settles O30: both forms are skips alone, on the equality of the two registers. -/
theorem registerSkips : Obligations.RegisterSkips := by
  intro x y u s
  have eq_form : exec (.skipEqReg x y u) s = done (.skip (getV x s == getV y s)) s := rfl
  have ne_form : exec (.skipNeReg x y u) s = done (.skip (getV x s != getV y s)) s := rfl
  refine ⟨⟨decode_encode (.skipEqReg x y u), ?_⟩, decode_encode (.skipNeReg x y u), ?_⟩
  · simpa [BitVec.toNat_inj] using exec_skip eq_form
  · simpa [BitVec.toNat_inj] using exec_skip ne_form

end Sys2Proof.Machine
end

section
/-! PROOFS. Each way through a step as an equation, and the statements about the step's cycle (spec/40_step_cycle.md): the timers' count, the
unrecognized word, the fetch and its bound, the halted core. -/

namespace Sys2Proof.Machine

open Sys2Proof.Safety

/-! ## The timers -/

/-- A form that completes other than by a stall counts both timers, from the values it left in them, and halts nothing. -/
theorem FormBody.countedFrom_finish {i : Instr} {s u : State} {o : FormOutcome} (b : FormBody i s o u) (ho : o ≠ .stallWait) :
    countedFrom (delayWritten i s) (soundWritten i s) (finish o u) ∧ (finish o u).halt = s.halt :=
  ⟨countedFrom_finish_of ho b.delay b.sound, by rw [finish_halt, b.halt]⟩

/-- A stall to wait is a `wait-key`'s, which writes no timer, and its step's end counts none and leaves the pc. -/
theorem FormBody.timersKept_finish_stallWait {i : Instr} {s u : State} (b : FormBody i s .stallWait u) :
    timersKept s (finish .stallWait u) ∧ (finish .stallWait u).pc = s.pc := by
  obtain ⟨⟨x, rfl⟩, -⟩ := b.stall rfl
  exact ⟨⟨b.delay, b.sound, rfl⟩, b.pc⟩

/-- The scan finds no key only when none is pressed. -/
theorem keyLevel_of_firstKey_eq_none {s : State} (h : firstKey s = none) {k : Nat} (hk : k < 16) : keyLevel k s = some false := by
  rcases firstKey_cases s with ⟨-, up⟩ | ⟨j, hj, -⟩
  · exact up k hk
  · cases h.symm.trans hj

/-! ## The ways through a step that run no form -/

theorem step_of_halted {s : State} (h : s.halt ≠ none) : step s = .next (noTone s) := by
  rcases step_cases s with ⟨-, he⟩ | ⟨hh, -⟩
  · exact he
  · exact absurd hh h

theorem step_of_pc_gt {s : State} (hh : s.halt = none) (hpc : 0xFFE < s.pc.toNat) :
    step s = .next (raiseFault .fetchBound s.pc none s) := by
  rcases step_cases s with ⟨h, -⟩ | ⟨-, ⟨-, he⟩ | ⟨hle, -⟩⟩
  · exact absurd hh h
  · exact he
  · omega

theorem step_of_decode_eq_none {s : State} {w : Word} (hh : s.halt = none) (hf : fetch s = some w) (hd : decode w = none) :
    step s = .next (timerUpdate (recordInvalid w s)) := by
  simp only [step, hh, hf, hd]; rfl

/-! ## The statements -/

/-- Settles O21, by the ends a form can have: a completed form counts unless it stalls, and a fault writes the halt record alone. -/
theorem timersCountOncePerStep : Obligations.TimersCountOncePerStep := by
  intro i s t h
  cases h ▸ exec_end i s with
  | raises => exact .inr ⟨⟨rfl, rfl, rfl⟩, rfl, .inl nofun⟩
  | completes o u body =>
    by_cases ho : o = .stallWait
    · subst ho
      obtain ⟨wait, up⟩ := body.stall rfl
      obtain ⟨timers, pc⟩ := body.timersKept_finish_stallWait
      exact .inr ⟨timers, pc, .inr ⟨wait, fun _ => keyLevel_of_firstKey_eq_none up⟩⟩
    · exact .inl (body.countedFrom_finish ho)

/-- Settles O10: the step records the word and counts the timers, and neither touches anything else. -/
theorem unrecognizedWordStalls : Obligations.UnrecognizedWordStalls := by
  intro s hh hpc hd
  refine ⟨_, step_of_decode_eq_none hh (fetch_of_pc_le hpc) hd, by simp, ?_, regsKept_refl [] (by simp), by simp,
    ⟨by simp, by simp⟩, memKept_of_mem (by simp), ⟨by simp, by simp⟩, by simp, by simp, by simp, ?_⟩
  · rw [timerUpdate_invalid, recordInvalid_invalid]
  · simpa [timersCounted] using countedFrom_timerUpdate (recordInvalid _ s)

/-- Settles O11: below the bound the fetch is the word at the pc, above it the step is the fault's. -/
theorem fetchReadsTheWordOrHalts : Obligations.FetchReadsTheWordOrHalts :=
  fun _ hh => ⟨fetch_of_pc_le, step_of_pc_gt hh⟩

/-- Settles O12: clearing the tone is all a halted core's step does. -/
theorem haltedCoreTakesNoStep : Obligations.HaltedCoreTakesNoStep := fun _ => step_of_halted

end Sys2Proof.Machine
end

section
/-! PROOFS. What `call` and `return` leave as equations where the entry they use exists, what a form that is a jump alone leaves
(`exec_jump`), and the statements about control flow (spec/41_control_flow.md). -/

namespace Sys2Proof.Machine

open Sys2Proof.Safety

/-! ## The end of a jump -/

/-- A form that is a jump alone sets the pc and leaves all else but the timers. -/
theorem exec_jump {i : Instr} {s : State} {target : Word} (h : exec i s = done (.jump target) s) :
    ∃ t, exec i s = .next t ∧ t.pc.toNat = target.toNat ∧ onlyRegs [] s t :=
  ⟨_, h, by simp, onlyRegs_finish [] s (by simp)⟩

/-! ## The stack's updates -/

/-- `s` with its pc put on the stack, before the step's end (`41_control_flow.md` R133). -/
def pcPushed (s : State) : State := { s with stack := s.stack.setIfInBounds s.sp.toNat s.pc, sp := s.sp + 1#8 }

/-- `s` with the latest entry taken off the stack, before the step's end; the entry itself stays (`41_control_flow.md` R131). -/
def entryPopped (s : State) : State := { s with sp := s.sp - 1#8 }

@[simp] theorem pcPushed_sp (s : State) : (pcPushed s).sp = s.sp + 1#8 := rfl
@[simp] theorem pcPushed_stack (s : State) : (pcPushed s).stack = s.stack.setIfInBounds s.sp.toNat s.pc := rfl
@[simp] theorem entryPopped_sp (s : State) : (entryPopped s).sp = s.sp - 1#8 := rfl
@[simp] theorem entryPopped_stack (s : State) : (entryPopped s).stack = s.stack := rfl

theorem pcPushed_entry {s : State} (h : s.sp.toNat < 16) : (pcPushed s).stack[s.sp.toNat]? = some s.pc := by
  simp [h]

theorem pcPushed_entry_ne {s : State} {k : Nat} (h : k ≠ s.sp.toNat) : (pcPushed s).stack[k]? = s.stack[k]? := by
  simp [h.symm]

/-! ## The end of a form that writes the stack -/

/-- The end of a form that writes at most the stack, its pointer and the pc: all else is as before, and the timers counted. -/
def onlyStack (s t : State) : Prop :=
  regsKept [] s t ∧ t.index = s.index ∧ memKept s t ∧ displayKept s t ∧ recordsKept s t ∧ t.draws = s.draws ∧ timersCounted s t

/-- A jump's end leaves all but the pc and the timers of the state it is given, which differs from `s` in the stack alone. -/
theorem onlyStack_finish_jump (stack : Vector Word 16) (sp : Byte) (w : Word) (s : State) :
    onlyStack s (finish (.jump w) { s with stack := stack, sp := sp }) := by
  obtain ⟨regs, index, -, mem, display, records, draws, timers⟩ :=
    onlyRegs_finish [] { s with stack := stack, sp := sp } (o := .jump w) nofun
  exact ⟨regs, index, mem, display, records, draws, timers⟩

/-! ## `call` and `return` -/

/-- `call` completes where a free entry is left. -/
theorem exec_call_of_sp_lt {s : State} (h : s.sp.toNat < 16) (nnn : Addr) :
    exec (.call nnn) s = .next (finish (.jump (addrOperand nnn)) (pcPushed s)) := by
  have push : pushPc s = some (pcPushed s) := if_pos h
  have not_full : s.sp ≠ 16#8 := by bv_omega
  change execCall nnn s = _
  rw [execCall, if_neg not_full, push]; rfl

theorem exec_call_of_sp_eq {s : State} (h : s.sp = 16#8) (nnn : Addr) :
    exec (.call nnn) s = .next (halted .stackOverflow 16#16 (some (encode (.call nnn))) s) :=
  if_pos h

/-- `return` completes where there is an entry below the stack pointer. -/
theorem exec_ret_of_entry {s : State} {entry : Word} (hsp : s.sp ≠ 0#8) (h : s.stack[(s.sp - 1#8).toNat]? = some entry) :
    exec .ret s = .next (finish (.jump (entry + 2#16)) (entryPopped s)) := by
  have pop : popEntry s = some (entry, entryPopped s) := by rw [popEntry, h]; rfl
  change execRet s = _
  rw [execRet, if_neg hsp, pop]; rfl

theorem exec_ret_of_sp_eq {s : State} (h : s.sp = 0#8) :
    exec .ret s = .next (halted .stackUnderflow 0#16 (some 0x00EE#16) s) :=
  if_pos h

/-- A `return` right after a `call` takes off the address the call put on. -/
theorem exec_ret_finish_pcPushed {s : State} (h : s.sp.toNat < 16) (o : FormOutcome) :
    exec .ret (finish o (pcPushed s)) = .next (finish (.jump (s.pc + 2#16)) (entryPopped (finish o (pcPushed s)))) := by
  refine exec_ret_of_entry ?_ ?_
  · rw [finish_sp, pcPushed_sp]; bv_omega
  · rw [finish_sp, pcPushed_sp, BitVec.add_sub_cancel, finish_stack, pcPushed_entry h]

/-! ## The statements -/

/-- Settles O27: the return takes off the entry at the call's `sp`, and neither form writes below it. -/
theorem callThenReturnComesBack : Obligations.CallThenReturnComesBack := by
  intro nnn s hsp
  refine ⟨_, _, exec_call_of_sp_lt hsp nnn, exec_ret_finish_pcPushed hsp _, by simp, ?_, fun k hk => ?_⟩
  · rw [finish_sp, entryPopped_sp, finish_sp, pcPushed_sp, BitVec.add_sub_cancel]
  · rw [finish_stack, entryPopped_stack, finish_stack, pcPushed_entry_ne hk.ne]

/-- Settles O24: both forms are jumps alone, and the sum of `jump-offset` is too small to wrap. -/
theorem jumpsSetThePc : Obligations.JumpsSetThePc := by
  intro nnn s
  have jump_form : exec (.jump nnn) s = done (.jump (addrOperand nnn)) s := rfl
  have offset_form : exec (.jumpOffset nnn) s = done (.jump (offsetTarget nnn s)) s := rfl
  refine ⟨⟨decode_encode (.jump nnn), ?_⟩, decode_encode (.jumpOffset nnn), ?_⟩
  · simpa using exec_jump jump_form
  · simpa [offsetTarget_toNat] using exec_jump offset_form

/-- Settles O25: a free entry takes the call's own address, and a full stack halts. -/
theorem callPushesItsOwnAddress : Obligations.CallPushesItsOwnAddress := by
  intro nnn s
  refine ⟨decode_encode (.call nnn), fun hsp => ?_, fun hsp => exec_call_of_sp_eq hsp nnn⟩
  refine ⟨_, exec_call_of_sp_lt hsp nnn, by simp, ?_, ?_, fun k hk => ?_, onlyStack_finish_jump ..⟩
  · rw [finish_sp, pcPushed_sp]; bv_omega
  · rw [finish_stack, pcPushed_entry hsp]
  · rw [finish_stack, pcPushed_entry_ne hk]

/-- Settles O26: the entry below `sp` exists up to `sp = 16` and stays where it is, and an empty stack halts. -/
theorem returnPopsTheLatestCall : Obligations.ReturnPopsTheLatestCall := by
  intro s
  refine ⟨decode_encode .ret, fun hpos hle => ?_, exec_ret_of_sp_eq⟩
  have sp_pred : (s.sp - 1#8).toNat = s.sp.toNat - 1 := by bv_omega
  obtain ⟨entry, hentry⟩ : ∃ entry, s.stack[s.sp.toNat - 1]? = some entry := ⟨_, Vector.getElem?_eq_getElem (by omega)⟩
  have ret := exec_ret_of_entry (s := s) (entry := entry) (by bv_omega) (by rw [sp_pred, hentry])
  refine ⟨_, entry, ret, hentry, by simp, ?_, by simp, onlyStack_finish_jump ..⟩
  rw [finish_sp, entryPopped_sp, sp_pred]

/-- Settles O29: both forms are skips alone, on the equality of the register and the immediate. -/
theorem immediateSkips : Obligations.ImmediateSkips := by
  intro x kk s
  have eq_form : exec (.skipEqImm x kk) s = done (.skip (getV x s == kk)) s := rfl
  have ne_form : exec (.skipNeImm x kk) s = done (.skip (getV x s != kk)) s := rfl
  refine ⟨⟨decode_encode (.skipEqImm x kk), ?_⟩, decode_encode (.skipNeImm x kk), ?_⟩
  · simpa [BitVec.toNat_inj] using exec_skip eq_form
  · simpa [BitVec.toNat_inj] using exec_skip ne_form

end Sys2Proof.Machine
end

section
/-! PROOFS. What a form leaves that writes one register (`exec_setV`) or VF and then one register (`exec_setVF_setV`), the corners where an
operand is VF itself (`exec_setVF_unary`, `exec_setVF_binary`), and the statements about loads, ALU and random (spec/42_alu.md). -/

namespace Sys2Proof.Machine

open Sys2Proof.Safety

/-! ## The flag register -/

@[simp] theorem getV_setVF_self (c : Byte) (s : State) : getV 0xF#4 (setVF c s) = c := getV_setV_self regVF c s

theorem getV_setVF_ne {r : Nibble} (h : r ≠ 0xF#4) (c : Byte) (s : State) : getV r (setVF c s) = getV r s :=
  getV_setV_ne h c s

/-! ## The flags' values -/

theorem flagByte_decide (p : Prop) [Decidable p] : flagByte (decide p) = if p then 1#8 else 0#8 := by
  simp [flagByte]

/-- The carry's comparison, which cannot wrap, says that the exact sum is above 255. -/
theorem addCarry_eq (a b : Byte) : addCarry a b = if a.toNat + b.toNat > 255 then 1#8 else 0#8 := by
  have := a.isLt
  have carry_iff : b.toNat > 255 - a.toNat ↔ a.toNat + b.toNat > 255 := by omega
  simp only [addCarry, flagByte_decide, carry_iff]

theorem above_eq (a b : Byte) : above a b = if a.toNat > b.toNat then 1#8 else 0#8 := flagByte_decide _

theorem lowBit_toNat (a : Byte) : (lowBit a).toNat = a.toNat % 2 := by
  simp [lowBit, Nat.and_one_is_mod]

theorem highBit_toNat (a : Byte) : (highBit a).toNat = a.toNat / 128 := by
  simp [highBit, Nat.shiftRight_eq_div_pow]

theorem shiftRight_one_toNat (a : Byte) : (a >>> 1).toNat = a.toNat / 2 := by
  simp [Nat.shiftRight_eq_div_pow]

theorem shiftLeft_one_toNat (a : Byte) : (a <<< 1).toNat = a.toNat * 2 % 256 := by
  simp [Nat.shiftLeft_eq]

theorem lowBit_shiftRight_one (a : Byte) : lowBit a >>> 1 = 0#8 := by
  apply BitVec.eq_of_toNat_eq
  rw [shiftRight_one_toNat, lowBit_toNat, BitVec.toNat_ofNat]; omega

theorem highBit_shiftLeft_one_toNat (a : Byte) : (highBit a <<< 1).toNat = a.toNat / 128 * 2 := by
  have := a.isLt
  rw [shiftLeft_one_toNat, highBit_toNat]; omega

theorem byte_sub_toNat (a b : Byte) : (a - b).toNat = (a.toNat + 256 - b.toNat) % 256 := by
  have := b.isLt
  rw [BitVec.toNat_sub]; omega

/-! ## The end of a form that writes one register -/

section
variable {i : Instr} {s u : State} {x y : Nibble} {b c : Byte}

/-- A form that writes one register of `u` leaves all else of `u` but the pc and the timers. -/
theorem exec_setV (h : exec i s = done .next (setV x b u)) :
    ∃ t, exec i s = .next t ∧ getV x t = b ∧ t.pc = u.pc + 2#16 ∧ onlyRegs [x] u t :=
  ⟨_, h, by simp, by simp, onlyRegs_setV x b u⟩

/-- A form that writes VF and then one register leaves that register's value in it, and the flag in VF unless that is the register. -/
theorem exec_setVF_setV (h : exec i s = done .next (setV x b (setVF c s))) :
    ∃ t, exec i s = .next t ∧ getV x t = b ∧ (x ≠ 0xF#4 → getV 0xF#4 t = c) ∧ t.pc = s.pc + 2#16 ∧ onlyRegs [x, 0xF#4] s t := by
  refine ⟨_, h, by simp, fun hx => ?_, by simp, onlyRegs_setVF_setV x b c s⟩
  rw [getV_finish, getV_setV_ne hx.symm, getV_setVF_self]

/-- `V[x] <- op V[x]` after `VF <- c` works on the new VF where `x` is F, else on the value on entry. -/
theorem exec_setVF_unary (op : Byte → Byte) (h : exec i s = done .next (setV x (op (getV x (setVF c s))) (setVF c s))) :
    ∃ t, exec i s = .next t ∧ (x ≠ 0xF#4 → getV x t = op (getV x s) ∧ getV 0xF#4 t = c) ∧
      (x = 0xF#4 → getV 0xF#4 t = op c) ∧ t.pc = s.pc + 2#16 ∧ onlyRegs [x, 0xF#4] s t := by
  obtain ⟨t, ht, value, flag, pc, kept⟩ := exec_setVF_setV h
  refine ⟨t, ht, fun hx => ⟨?_, flag hx⟩, ?_, pc, kept⟩
  · rw [value, getV_setVF_ne hx]
  · rintro rfl
    rw [value, getV_setVF_self]

/-- `V[x] <- op V[x] V[y]` after `VF <- c` takes the new VF for each operand that is F, else the value on entry. -/
theorem exec_setVF_binary (op : Byte → Byte → Byte)
    (h : exec i s = done .next (setV x (op (getV x (setVF c s)) (getV y (setVF c s))) (setVF c s))) :
    ∃ t, exec i s = .next t ∧
      (x ≠ 0xF#4 → y ≠ 0xF#4 → getV x t = op (getV x s) (getV y s) ∧ getV 0xF#4 t = c) ∧
      (x = 0xF#4 → y ≠ 0xF#4 → getV 0xF#4 t = op c (getV y s)) ∧
      (y = 0xF#4 → x ≠ 0xF#4 → getV 0xF#4 t = c ∧ getV x t = op (getV x s) c) ∧
      (x = 0xF#4 → y = 0xF#4 → getV 0xF#4 t = op c c) ∧
      t.pc = s.pc + 2#16 ∧ onlyRegs [x, 0xF#4] s t := by
  obtain ⟨t, ht, value, flag, pc, kept⟩ := exec_setVF_setV h
  refine ⟨t, ht, fun hx hy => ⟨?_, flag hx⟩, ?_, ?_, ?_, pc, kept⟩
  · rw [value, getV_setVF_ne hx, getV_setVF_ne hy]
  · rintro rfl hy
    rw [value, getV_setVF_self, getV_setVF_ne hy]
  · rintro rfl hx
    rw [value, getV_setVF_self, getV_setVF_ne hx]
    exact ⟨flag hx, rfl⟩
  · rintro rfl rfl
    rw [value, getV_setVF_self]

/-- What `sub-reg` and `subn-reg` share: the subtraction and its corners, for the flag `c` each writes first. -/
theorem exec_subInto (h : exec i s = done .next (subInto x y (setVF c s))) :
    ∃ t, exec i s = .next t ∧
      (x ≠ 0xF#4 → y ≠ 0xF#4 → (getV x t).toNat = ((getV x s).toNat + 256 - (getV y s).toNat) % 256 ∧ getV 0xF#4 t = c) ∧
      (x = 0xF#4 → y ≠ 0xF#4 → getV 0xF#4 t = c - getV y s) ∧
      (y = 0xF#4 → x ≠ 0xF#4 → getV 0xF#4 t = c ∧ getV x t = getV x s - c) ∧
      (x = 0xF#4 → y = 0xF#4 → getV 0xF#4 t = 0#8) ∧
      t.pc = s.pc + 2#16 ∧ onlyRegs [x, 0xF#4] s t := by
  obtain ⟨t, ht, neither, vx, vy, both, rest⟩ := exec_setVF_binary (· - ·) h
  refine ⟨t, ht, fun hx hy => ?_, vx, vy, fun hx hy => ?_, rest⟩
  · obtain ⟨value, flag⟩ := neither hx hy
    exact ⟨by rw [value, byte_sub_toNat], flag⟩
  · rw [both hx hy, BitVec.sub_self]

end

/-! ## The statements -/

/-- Settles O31: both forms write one register alone. -/
theorem loadsWriteVx : Obligations.LoadsWriteVx := fun x y kk _ =>
  ⟨⟨decode_encode (.loadImm x kk), exec_setV rfl⟩, decode_encode (.loadReg x y), exec_setV rfl⟩

/-- Settles O32: the form writes one register alone, with a sum at 8 bits. -/
theorem addImmWrapsWithoutFlag : Obligations.AddImmWrapsWithoutFlag := by
  intro x kk s
  obtain ⟨t, ht, sum, rest⟩ := exec_setV (i := .addImm x kk) (s := s) rfl
  exact ⟨decode_encode (.addImm x kk), t, ht, by rw [sum, BitVec.toNat_add], rest⟩

/-- Settles O33: each form writes one register alone, with an operation that works bit by bit. -/
theorem bitwiseFormsCombineBits : Obligations.BitwiseFormsCombineBits := by
  intro x y s
  obtain ⟨t, ht, disj, or_rest⟩ := exec_setV (i := .or x y) (s := s) rfl
  obtain ⟨u, hu, conj, and_rest⟩ := exec_setV (i := .and x y) (s := s) rfl
  obtain ⟨v, hv, excl, xor_rest⟩ := exec_setV (i := .xor x y) (s := s) rfl
  refine ⟨⟨decode_encode (.or x y), t, ht, fun b => ?_, or_rest⟩, ⟨decode_encode (.and x y), u, hu, fun b => ?_, and_rest⟩,
    decode_encode (.xor x y), v, hv, fun b => ?_, xor_rest⟩
  · rw [disj, BitVec.getLsbD_or]
  · rw [conj, BitVec.getLsbD_and]
  · rw [excl, BitVec.getLsbD_xor]

/-- Settles O34: the carry is taken of the values on entry, and the sum of the registers after it is written. -/
theorem addRegSumsAndCarries : Obligations.AddRegSumsAndCarries := by
  rintro x y s c rfl
  rw [← addCarry_eq]
  obtain ⟨t, ht, neither, rest⟩ := exec_setVF_binary (i := .addReg x y) (s := s) (· + ·) rfl
  refine ⟨decode_encode (.addReg x y), t, ht, fun hx hy => ?_, rest⟩
  obtain ⟨sum, flag⟩ := neither hx hy
  exact ⟨by rw [sum, BitVec.toNat_add], flag⟩

/-- Settles O35: `exec_subInto` with the flag `Vx > Vy`. -/
theorem subRegSubtractsAndFlags : Obligations.SubRegSubtractsAndFlags := by
  rintro x y s c rfl
  rw [← above_eq]
  exact ⟨decode_encode (.subReg x y), exec_subInto rfl⟩

/-- Settles O36: `exec_subInto` with the flag `Vy > Vx`. -/
theorem subnRegSubtractsTheSameWay : Obligations.SubnRegSubtractsTheSameWay := by
  rintro x y s c rfl
  rw [← above_eq]
  exact ⟨decode_encode (.subnReg x y), exec_subInto rfl⟩

/-- Settles O37: the flag is written first, so that with `x = F` the bit shifted out is what is shifted. -/
theorem shiftsMoveVxAndFlagTheBit : Obligations.ShiftsMoveVxAndFlagTheBit := by
  intro x y s
  obtain ⟨t, ht, right, right_vf, right_rest⟩ := exec_setVF_unary (i := .shiftRight x y) (s := s) (· >>> 1) rfl
  obtain ⟨u, hu, left, left_vf, left_rest⟩ := exec_setVF_unary (i := .shiftLeft x y) (s := s) (· <<< 1) rfl
  refine ⟨⟨decode_encode (.shiftRight x y), t, ht, fun hx => ?_, fun hx => ?_, right_rest⟩, decode_encode (.shiftLeft x y), u, hu,
    fun hx => ?_, fun hx => ?_, left_rest⟩
  · obtain ⟨value, flag⟩ := right hx
    exact ⟨by rw [value, shiftRight_one_toNat], by rw [flag, lowBit_toNat]⟩
  · rw [right_vf hx, lowBit_shiftRight_one]
  · obtain ⟨value, flag⟩ := left hx
    exact ⟨by rw [value, shiftLeft_one_toNat], by rw [flag, highBit_toNat]⟩
  · rw [left_vf hx, highBit_shiftLeft_one_toNat]

/-- Settles O38: the form counts a draw and writes one register, and neither touches anything else. -/
theorem randomMasksAFreshByte : Obligations.RandomMasksAFreshByte := by
  intro x kk s
  obtain ⟨t, ht, masked, pc, regs, index, stack, mem, display, records, draws, timers⟩ :=
    exec_setV (i := .random x kk) (s := s) rfl
  refine ⟨decode_encode (.random x kk), t, ht, fun b => ?_, draws, pc, regs, index, stack, mem, display, records, timers⟩
  rw [masked, BitVec.getLsbD_and]; rfl

end Sys2Proof.Machine
end

section
/-! PROOFS. What the forms leave that write `I` (`exec_setIndexReg`, `addIndex_end`) or store or load a block (`storeBcd_end`,
`memByte_regsStored`, `getV_regsLoaded`), each with its `MemBound`, and the statements about the index register and memory
(spec/43_index_memory.md). -/

namespace Sys2Proof.Machine

open Sys2Proof.Safety

/-! ## Blocks that fit and blocks that do not -/

theorem memFits_succ_iff (a n : Nat) : memFits a (n + 1) = true ↔ a + n ≤ 0xFFF := by simp [memFits_iff]

section
variable {a n : Nat} {bs : List Byte} {s : State}

theorem storeBlock_of_le (hn : bs.length = n + 1) (h : a + n ≤ 0xFFF) :
    storeBlock a bs s = some { s with mem := cellWrites s.mem a bs } :=
  if_pos (by rwa [hn, memFits_succ_iff])

theorem storeBlock_of_gt (hn : bs.length = n + 1) (h : 0xFFF < a + n) : storeBlock a bs s = none :=
  if_neg (by rwa [hn, memFits_succ_iff, Nat.not_le])

theorem loadBlock_of_le (h : a + n ≤ 0xFFF) : loadBlock a (n + 1) s = some (cellReads s.mem a (n + 1)) :=
  if_pos (by rwa [memFits_succ_iff])

theorem loadBlock_of_gt (h : 0xFFF < a + n) : loadBlock a (n + 1) s = none :=
  if_neg (by rwa [memFits_succ_iff, Nat.not_le])

end

theorem cellRead_cellWrites_of_getElem? {bs : List Byte} {k : Nat} {v : Byte} (h : bs[k]? = some v) (m : Memory) (a : Nat) :
    cellRead (cellWrites m a bs) (a + k) = v := by
  simp [cellRead_cellWrites, h]

theorem cellRead_cellWrites_outside {a b : Nat} {bs : List Byte} (h : b < a ∨ a + bs.length ≤ b) (m : Memory) :
    cellRead (cellWrites m a bs) b = cellRead m b := by
  rw [cellRead_cellWrites]
  split
  · rw [List.getElem?_eq_none (by omega), Option.getD_none]
  · rfl

/-! ## The end of a form that writes `I` after VF or after a block of memory -/

/-- The end of a form that wrote VF and then `I`. -/
theorem onlyRegsAndIndex_setVF_setIndexReg (w : Word) (c : Byte) (s : State) :
    onlyRegsAndIndex [0xF#4] s (finish .next (setIndexReg w (setVF c s))) := by
  obtain ⟨regs, rest⟩ := onlyRegsAndIndex_setIndexReg w (setVF c s)
  refine ⟨fun r hr => ?_, rest⟩
  rw [regs r (List.not_mem_nil), getV_setVF_ne (by simpa using hr)]

/-- The end of a form that stored a block and then wrote `I`. -/
theorem onlyMemory_setIndexReg_cellWrites (w : Word) (a : Nat) (bs : List Byte) (s : State) :
    onlyMemory a bs.length s (finish .next (setIndexReg w { s with mem := cellWrites s.mem a bs })) := by
  obtain ⟨regs, stack, -, rest⟩ := onlyRegsAndIndex_setIndexReg w { s with mem := cellWrites s.mem a bs }
  exact ⟨regs, stack, fun b hb => cellRead_cellWrites_outside hb s.mem, rest⟩

/-! ## `set-index`, `load-glyph-addr` and `add-index` -/

/-- A form that writes `I` alone leaves all else but the pc and the timers. -/
theorem exec_setIndexReg {i : Instr} {s : State} {w : Word} (h : exec i s = done .next (setIndexReg w s)) :
    ∃ t, exec i s = .next t ∧ t.index = w ∧ t.pc = s.pc + 2#16 ∧ onlyRegsAndIndex [] s t :=
  ⟨_, h, by simp, by simp, onlyRegsAndIndex_setIndexReg w s⟩

/-- A glyph's address is an exact product, at most 1275. -/
theorem glyphAddress_toNat (v : Byte) : (glyphAddress v).toNat = v.toNat * 5 := by
  have := v.isLt
  rw [glyphAddress, BitVec.toNat_mul, wideByte_toNat, BitVec.toNat_ofNat]; omega

theorem indexOverflow_eq (sum : Nat) : indexOverflow sum = if sum > 0xFFF then 1#8 else 0#8 := flagByte_decide _

/-- `add-index` with either reading of the flag: VF takes the flag, and `I` the sum, to which the new VF counts where `x` is F. -/
theorem addIndex_end (reading : IndexFlagSum) (x : Nibble) (s : State) :
    ∃ t, addIndex reading x s = .next t ∧ getV 0xF#4 t = indexOverflow (indexSum reading s.index (getV x s)) ∧
      (x ≠ 0xF#4 → t.index = s.index + wideByte (getV x s)) ∧
      (x = 0xF#4 → t.index = s.index + wideByte (indexOverflow (indexSum reading s.index (getV x s)))) ∧
      t.pc = s.pc + 2#16 ∧ onlyRegsAndIndex [0xF#4] s t := by
  refine ⟨_, rfl, by simp, fun hx => ?_, ?_, by simp, onlyRegsAndIndex_setVF_setIndexReg ..⟩
  · rw [finish_index, setIndexReg_index, setVF_index, getV_setVF_ne hx]
  · rintro rfl
    rw [finish_index, setIndexReg_index, setVF_index, getV_setVF_self]

/-! ## `store-regs` -/

theorem blockIndex_toNat (x : Nibble) : (blockIndex x).toNat = x.toNat + 1 := by
  have := x.isLt
  rw [blockIndex, blockSize, BitVec.toNat_ofNat]; omega

theorem exec_storeRegs_of_gt {x : Nibble} {s : State} (h : 0xFFF < s.index.toNat + x.toNat) :
    exec (.storeRegs x) s = .next (haltedMemBound (.storeRegs x) s) := by
  change execStoreRegs x s = _
  rw [execStoreRegs, storeBlock_of_gt (length_blockRegs x s) h]
  exact raiseMemBound_eq _ s

theorem onlyMemory_finish_regsStored (x : Nibble) (s : State) :
    onlyMemory s.index.toNat (x.toNat + 1) s (finish .next (regsStored x s)) := by
  rw [← length_blockRegs x s]
  exact onlyMemory_setIndexReg_cellWrites ..

/-! ## `load-regs` -/

/-- `s` with `M[I..I+x]` in `V[0..x]` and the new `I`, before the step's end (`43_index_memory.md` R186). -/
def regsLoaded (x : Nibble) (s : State) : State :=
  setIndexReg (blockIndex x) { s with v := setRegsFrom 0 (cellReads s.mem s.index.toNat (blockSize x)) s.v }

theorem getV_regsLoaded (x k : Nibble) (s : State) :
    getV k (regsLoaded x s) = if k.toNat ≤ x.toNat then memByte s (s.index.toNat + k.toNat) else getV k s := by
  rw [regsLoaded, getV_setIndexReg, getV_setRegs, blockSize]
  split
  next h => rw [getElem?_cellReads _ _ _ _ (by omega), Option.getD_some, memByte]
  next h => rw [List.getElem?_eq_none (by rw [length_cellReads]; omega), Option.getD_none]

/-- `load-regs` completes where its last byte exists. -/
theorem exec_loadRegs_of_le {x : Nibble} {s : State} (h : s.index.toNat + x.toNat ≤ 0xFFF) :
    exec (.loadRegs x) s = .next (finish .next (regsLoaded x s)) := by
  change execLoadRegs x s = _
  rw [execLoadRegs, blockSize, loadBlock_of_le h]; rfl

theorem exec_loadRegs_of_gt {x : Nibble} {s : State} (h : 0xFFF < s.index.toNat + x.toNat) :
    exec (.loadRegs x) s = .next (haltedMemBound (.loadRegs x) s) := by
  change execLoadRegs x s = _
  rw [execLoadRegs, blockSize, loadBlock_of_gt h]
  exact raiseMemBound_eq _ s

/-! ## `store-bcd` -/

theorem hundreds_toNat (v : Byte) : (hundreds v).toNat = v.toNat / 100 := by simp [hundreds]

theorem tens_toNat (v : Byte) : (tens v).toNat = v.toNat / 10 % 10 := by simp [tens]

theorem ones_toNat (v : Byte) : (ones v).toNat = v.toNat % 10 := by simp [ones]

theorem length_bcdBytes (order : BcdOrder) (v : Byte) : (bcdBytes order v).length = 3 := by cases order <;> rfl

/-- `store-bcd` with either order completes where its last byte exists, and puts the order's three digits at `I`, `I + 1`, `I + 2`. -/
theorem storeBcd_end {order : BcdOrder} {x : Nibble} {s : State} {d₀ d₁ d₂ : Byte}
    (digits : bcdBytes order (getV x s) = [d₀, d₁, d₂]) (h : s.index.toNat + 2 ≤ 0xFFF) :
    ∃ t, storeBcd order x s = .next t ∧ memByte t s.index.toNat = d₀ ∧ memByte t (s.index.toNat + 1) = d₁ ∧
      memByte t (s.index.toNat + 2) = d₂ ∧ t.index = s.index ∧ t.pc = s.pc + 2#16 ∧ onlyMemory s.index.toNat 3 s t := by
  have byte {k : Nat} {d : Byte} (hk : [d₀, d₁, d₂][k]? = some d) := cellRead_cellWrites_of_getElem? hk s.mem s.index.toNat
  rw [storeBcd, digits, storeBlock_of_le rfl h]
  exact ⟨_, rfl, byte (k := 0) rfl, byte (k := 1) rfl, byte (k := 2) rfl, by simp, by simp,
    onlyMemory_setIndexReg_cellWrites s.index _ [d₀, d₁, d₂] s⟩

theorem storeBcd_of_gt (order : BcdOrder) {x : Nibble} {s : State} (h : 0xFFF < s.index.toNat + 2) :
    storeBcd order x s = .next (haltedMemBound (.storeBcd x) s) := by
  rw [storeBcd, storeBlock_of_gt (length_bcdBytes order (getV x s)) h]
  exact raiseMemBound_eq _ s

/-! ## The statements -/

/-- Settles O42: the block's bytes are the registers' (`memByte_regsStored`), and no byte outside it is written. -/
theorem storeRegsWritesTheBlock : Obligations.StoreRegsWritesTheBlock := by
  intro x s
  refine ⟨decode_encode (.storeRegs x), fun hfits => ?_, exec_storeRegs_of_gt⟩
  refine ⟨_, exec_storeRegs_of_le hfits, fun k hk => ?_, ?_, by simp, onlyMemory_finish_regsStored x s⟩
  · rw [memByte_congr (finish_mem ..), memByte_regsStored hk]
  · rw [finish_index, regsStored, setIndexReg_index, blockIndex_toNat]

/-- Settles O43: the registers up to `Vx` are the block's bytes and the higher ones stay (`getV_regsLoaded`). -/
theorem loadRegsReadsTheBlock : Obligations.LoadRegsReadsTheBlock := by
  intro x s
  refine ⟨decode_encode (.loadRegs x), fun hfits => ?_, exec_loadRegs_of_gt⟩
  obtain ⟨-, kept⟩ := onlyRegsAndIndex_setIndexReg (blockIndex x)
    { s with v := setRegsFrom 0 (cellReads s.mem s.index.toNat (blockSize x)) s.v }
  refine ⟨_, exec_loadRegs_of_le hfits, fun k hk => ?_, fun k hk => ?_, ?_, ?_, kept⟩
  · rw [getV_finish, getV_regsLoaded, if_pos hk]
  · rw [getV_finish, getV_regsLoaded, if_neg (Nat.not_le.2 hk)]
  · rw [finish_index, regsLoaded, setIndexReg_index, blockIndex_toNat]
  · rw [finish_pc, updatePc_next, regsLoaded, setIndexReg_pc]

/-- Settles O39: both forms write `I` alone, with the address or with the product, which does not wrap. -/
theorem indexTakesAddressOrGlyph : Obligations.IndexTakesAddressOrGlyph := by
  intro nnn x s
  obtain ⟨t, ht, address, set_rest⟩ := exec_setIndexReg (i := .setIndex nnn) (s := s) rfl
  obtain ⟨u, hu, glyph, glyph_rest⟩ := exec_setIndexReg (i := .loadGlyphAddr x) (s := s) rfl
  exact ⟨⟨decode_encode (.setIndex nnn), t, ht, by rw [address, addrOperand_toNat], set_rest⟩,
    decode_encode (.loadGlyphAddr x), u, hu, by rw [glyph, glyphAddress_toNat], glyph_rest⟩

/-- Settles O40: `addIndex_end` with the flag of the 16-bit sum, which is the sum that `I` takes where `x` is not F. -/
theorem addIndexFlagsThenAdds : Obligations.AddIndexFlagsThenAdds := by
  rintro x s sum rfl
  obtain ⟨t, ht, flag, added, added_flag, rest⟩ := addIndex_end .sixteenBit x s
  rw [indexSum_sixteenBit, indexOverflow_eq] at flag added_flag
  refine ⟨decode_encode (.addIndex x), t, ht, flag, fun hx => ?_, fun hx => ?_, rest⟩
  · rw [added hx, BitVec.toNat_add, wideByte_toNat]
  · rw [added_flag hx, BitVec.toNat_add, wideByte_toNat]
    split <;> rfl

/-- Settles O41: `storeBcd_end` and `storeBcd_of_gt` for both orders; `exec` has the order OBSERVED (log 5). -/
theorem storeBcdWritesThreeDigits : Obligations.StoreBcdWritesThreeDigits := by
  intro x s
  refine ⟨decode_encode (.storeBcd x), fun hfits => ?_, fun hfits => ?_,
    fun hbound => ⟨storeBcd_of_gt .observed hbound, storeBcd_of_gt .canonical hbound⟩⟩
  · obtain ⟨t, ht, first, second, third, rest⟩ := storeBcd_end (order := .observed) (x := x) rfl hfits
    exact ⟨t, ht, by rw [first, hundreds_toNat], by rw [second, ones_toNat], by rw [third, tens_toNat], rest⟩
  · obtain ⟨t, ht, first, second, third, rest⟩ := storeBcd_end (order := .canonical) (x := x) rfl hfits
    exact ⟨t, ht, by rw [first, hundreds_toNat], by rw [second, tens_toNat], by rw [third, ones_toNat], rest⟩

end Sys2Proof.Machine
end

section
/-! PROOFS. What `draw` leaves (`exec_draw_of_fits`, `toggles_spriteBlit`, `onlyScreen_finish_spriteDrawn`) and its `MemBound`, and the
statements about the display (spec/44_display.md). -/

namespace Sys2Proof.Machine

open Sys2Proof.Safety

/-! ## The end of a form that writes the framebuffer and the redraw flag -/

/-- The end of a form that sets the redraw flag and writes the framebuffer and at most the registers `written`: the pc is at the next
word, all else is as before, and the timers counted. -/
def onlyScreen (written : List Nibble) (s t : State) : Prop :=
  t.redraw = true ∧ t.pc = s.pc + 2#16 ∧ regsKept written s t ∧ t.index = s.index ∧ stackKept s t ∧ memKept s t ∧ recordsKept s t ∧
    t.draws = s.draws ∧ timersCounted s t

theorem onlyScreen_finish (fb : FrameBuffer) (s : State) :
    onlyScreen [] s (finish .next { s with fb := fb, redraw := true }) := by
  obtain ⟨regs, index, stack, mem, -, rest⟩ := onlyRegs_finish [] { s with fb := fb, redraw := true } (o := .next) nofun
  exact ⟨by simp, by simp, regs, index, stack, mem, rest⟩

/-- The end of a form that wrote VF too. -/
theorem onlyScreen_finish_setVF (c : Byte) (fb : FrameBuffer) (s : State) :
    onlyScreen [0xF#4] s (finish .next (setVF c { s with fb := fb, redraw := true })) := by
  obtain ⟨redraw, pc, -, rest⟩ := onlyScreen_finish fb (setVF c s)
  refine ⟨redraw, pc, fun r hr => ?_, rest⟩
  rw [getV_finish, getV_setVF_ne (by simpa using hr)]; rfl

/-! ## The cells of a sprite -/

theorem spriteRow_eq_iff (cy : Byte) (i : Nat) (r : Fin 32) : spriteRow cy i = r ↔ (cy.toNat + i) % 32 = r.val := Fin.ext_iff

theorem spriteCol_eq_iff (cx : Byte) (j : Nat) (c : Fin 64) : spriteCol cx j = c ↔ (cx.toNat + j) % 64 = c.val := Fin.ext_iff

/-- The rows and columns of the drawing loops cover the cells that `Safety.spriteCovers` names. -/
theorem spriteCovers_iff (x y n : Nibble) (s : State) (r : Fin 32) (c : Fin 64) :
    spriteCovers x y n s r c ↔
      ∃ i row, (cellReads s.mem s.index.toNat n.toNat)[i]? = some row ∧ spriteRow (getV y s) (0 + i) = r ∧
        ∃ j ∈ List.range 8, spriteCol (getV x s) j = c ∧ spritePixel row j = true := by
  simp only [Nat.zero_add, spriteRow_eq_iff, spriteCol_eq_iff, List.mem_range]
  constructor
  · rintro ⟨i, hi, j, hj, hr, hc, pixel⟩
    exact ⟨i, _, getElem?_cellReads _ _ _ _ hi, hr, j, hj, hc, pixel⟩
  · rintro ⟨i, row, hrow, hr, j, hj, hc, pixel⟩
    have hi : i < n.toNat := by simpa using (List.getElem?_eq_some_iff.1 hrow).1
    rw [getElem?_cellReads _ _ _ _ hi] at hrow
    cases hrow
    exact ⟨i, hi, j, hj, hr, hc, pixel⟩

/-- The cells a sprite covers depend on its coordinates, on `I` and on the bytes of memory alone. -/
theorem spriteCovers_congr {x y n : Nibble} {s t : State} (hx : getV x t = getV x s) (hy : getV y t = getV y s)
    (hi : t.index = s.index) (hm : memKept s t) : spriteCovers x y n t = spriteCovers x y n s := by
  funext r c
  simp only [spriteCovers, hx, hy, hi, hm _]

/-! ## `draw` -/

/-- The framebuffer and the collision after the last row of `draw Vx, Vy, n` in `s` (`44_display.md` R202). -/
def spriteBlit (x y n : Nibble) (s : State) : Blit :=
  drawRows (getV x s) (getV y s) 0 (cellReads s.mem s.index.toNat n.toNat) { fb := s.fb, collision := false }

/-- `s` with the sprite drawn, the collision in VF and the redraw flag set, before the step's end (`44_display.md` R202). -/
def spriteDrawn (x y n : Nibble) (s : State) : State :=
  setVF (flagByte (spriteBlit x y n s).collision) { s with fb := (spriteBlit x y n s).fb, redraw := true }

/-- A draw toggles the cells its sprite covers. -/
theorem toggles_spriteBlit (x y n : Nibble) (s : State) :
    Toggles (spriteCovers x y n s) { fb := s.fb, collision := false } (spriteBlit x y n s) := by
  have rows : (cellReads s.mem s.index.toNat n.toNat).length ≤ 32 := by rw [length_cellReads]; omega
  have covered : spriteCovers x y n s = _ := funext₂ fun r c => propext (spriteCovers_iff x y n s r c)
  rw [covered]
  exact toggles_rows _ _ 0 _ _ rows

theorem spriteBlit_collision_iff (x y n : Nibble) (s : State) :
    (spriteBlit x y n s).collision = true ↔ ∃ r c, spriteCovers x y n s r c ∧ fbGet s.fb r c = true := by
  obtain ⟨-, -, collision⟩ := toggles_spriteBlit x y n s
  simpa using collision

theorem memFits_nibble_iff (a : Nat) (n : Nibble) : memFits a n.toNat = true ↔ n = 0#4 ∨ a + (n.toNat - 1) ≤ 0xFFF := by
  rw [memFits_iff, ← BitVec.toNat_inj]; rfl

/-- `draw` completes where every byte of its sprite exists. -/
theorem exec_draw_of_fits {x y n : Nibble} {s : State} (h : n = 0#4 ∨ s.index.toNat + (n.toNat - 1) ≤ 0xFFF) :
    exec (.draw x y n) s = .next (finish .next (spriteDrawn x y n s)) := by
  have loads : loadBlock s.index.toNat n.toNat s = some (cellReads s.mem s.index.toNat n.toNat) :=
    if_pos ((memFits_nibble_iff ..).2 h)
  change execDraw x y n s = _
  rw [execDraw, loads]; rfl

theorem exec_draw_of_gt {x y n : Nibble} {s : State} (hn : n ≠ 0#4) (h : 0xFFF < s.index.toNat + (n.toNat - 1)) :
    exec (.draw x y n) s = .next (haltedMemBound (.draw x y n) s) := by
  have fails : loadBlock s.index.toNat n.toNat s = none := if_neg fun fits =>
    ((memFits_nibble_iff ..).1 fits).elim hn (Nat.not_le.2 h)
  change execDraw x y n s = _
  rw [execDraw, fails]
  exact raiseMemBound_eq _ s

/-! ## The state a completed `draw` leaves -/

theorem fb_finish_spriteDrawn (x y n : Nibble) (s : State) :
    (finish .next (spriteDrawn x y n s)).fb = (spriteBlit x y n s).fb := by simp [spriteDrawn]

theorem getV_VF_finish_spriteDrawn (x y n : Nibble) (s : State) :
    getV 0xF#4 (finish .next (spriteDrawn x y n s)) = flagByte (spriteBlit x y n s).collision := by
  rw [getV_finish, spriteDrawn, getV_setVF_self]

theorem onlyScreen_finish_spriteDrawn (x y n : Nibble) (s : State) :
    onlyScreen [0xF#4] s (finish .next (spriteDrawn x y n s)) := onlyScreen_finish_setVF ..

/-- After a draw whose coordinates are not VF, the same sprite covers the same cells. -/
theorem spriteCovers_finish_spriteDrawn {x y : Nibble} (hx : x ≠ 0xF#4) (hy : y ≠ 0xF#4) (n : Nibble) (s : State) :
    spriteCovers x y n (finish .next (spriteDrawn x y n s)) = spriteCovers x y n s := by
  obtain ⟨-, -, regs, index, -, mem, -⟩ := onlyScreen_finish_spriteDrawn x y n s
  exact spriteCovers_congr (regs x (by simpa using hx)) (regs y (by simpa using hy)) index mem

theorem flagByte_eq_one_iff (c : Bool) : flagByte c = 1#8 ↔ c = true := by cases c <;> decide

/-! ## The statements -/

/-- Settles O45: `toggles_spriteBlit` says what the cells and the collision are, and a draw writes VF and the screen alone. -/
theorem drawTogglesTheCoveredCells : Obligations.DrawTogglesTheCoveredCells := by
  intro x y n s
  refine ⟨decode_encode (.draw x y n), fun h => ?_, exec_draw_of_gt⟩
  obtain ⟨covered, uncovered, -⟩ := toggles_spriteBlit x y n s
  rw [← fb_finish_spriteDrawn] at covered uncovered
  refine ⟨_, exec_draw_of_fits h, covered, uncovered, fun hit => ?_, fun miss => ?_, onlyScreen_finish_spriteDrawn x y n s⟩
  · rw [getV_VF_finish_spriteDrawn, (spriteBlit_collision_iff ..).2 hit]; rfl
  · rw [← spriteBlit_collision_iff, Bool.not_eq_true] at miss
    rw [getV_VF_finish_spriteDrawn, miss]; rfl

/-- Settles O47: both draws cover the same cells, so each of these toggles twice, and the second draw finds set those the first set. -/
theorem drawingTwiceRestoresTheScreen : Obligations.DrawingTwiceRestoresTheScreen := by
  intro x y n s hx hy h
  obtain ⟨-, -, -, index, -⟩ := onlyScreen_finish_spriteDrawn x y n s
  have covers := spriteCovers_finish_spriteDrawn hx hy n s
  obtain ⟨covered, uncovered, -⟩ := toggles_spriteBlit x y n s
  rw [← fb_finish_spriteDrawn] at covered uncovered
  obtain ⟨covered', uncovered', -⟩ := toggles_spriteBlit x y n (finish .next (spriteDrawn x y n s))
  refine ⟨_, _, exec_draw_of_fits h, exec_draw_of_fits (by rwa [index]), fb_ext fun r c => ?_, ?_⟩
  · rw [fb_finish_spriteDrawn]
    by_cases hit : spriteCovers x y n s r c
    · rw [covered' r c (by rwa [covers]), covered r c hit, Bool.not_not]
    · rw [uncovered' r c (by rwa [covers]), uncovered r c hit]
  · rw [getV_VF_finish_spriteDrawn, flagByte_eq_one_iff, spriteBlit_collision_iff, covers]
    refine exists₂_congr fun r c => and_congr_right fun hit => ?_
    rw [covered r c hit, Bool.not_eq_true']

/-- Settles O44: the form writes the cleared framebuffer and the redraw flag alone. -/
theorem clearScreenClearsAndRedraws : Obligations.ClearScreenClearsAndRedraws :=
  ⟨decode_encode .clearScreen, fun s => ⟨_, rfl, fun r c => by rw [finish_fb, fbGet_fbClear], onlyScreen_finish fbClear s⟩⟩

/-- Settles O46: with no row to draw, the framebuffer is the one on entry and nothing collides. -/
theorem drawOfNoRowsChangesNoCell : Obligations.DrawOfNoRowsChangesNoCell := by
  intro x y s
  have blit : spriteBlit x y 0#4 s = { fb := s.fb, collision := false } := rfl
  obtain ⟨redraw, pc, -, -, -, -, ⟨-, -, halt⟩, -⟩ := onlyScreen_finish_spriteDrawn x y 0#4 s
  refine ⟨_, exec_draw_of_fits (.inl rfl), ?_, ?_, redraw, halt, pc⟩
  · rw [fb_finish_spriteDrawn, blit]
  · rw [getV_VF_finish_spriteDrawn, blit]; rfl

end Sys2Proof.Machine
end

section
/-! PROOFS. What a form leaves that writes a timer (`exec_setTimers`), the key skips and `wait-key` as equations for what the latch answers
(`firstKey_eq_some`, `firstKey_eq_none`), and the statements about timers and input (spec/45_timers_input.md). -/

namespace Sys2Proof.Machine

open Sys2Proof.Safety

/-! ## The end of a form that writes a timer -/

/-- The end of a form that writes at most the timers, to `delay` and `sound`: they counted once from there, the pc is at the next word, and
all else is as before. -/
def onlyTimers (delay sound : Byte) (s t : State) : Prop :=
  countedFrom delay sound t ∧ t.pc = s.pc + 2#16 ∧ regsKept [] s t ∧ t.index = s.index ∧ stackKept s t ∧ memKept s t ∧
    displayKept s t ∧ recordsKept s t ∧ t.draws = s.draws

/-- A form that writes the timers alone leaves all else but the pc, and the step's count starts from what it wrote. -/
theorem exec_setTimers {i : Instr} {s : State} {d e : Byte} (h : exec i s = done .next { s with delay := d, sound := e }) :
    ∃ t, exec i s = .next t ∧ onlyTimers d e s t := by
  obtain ⟨regs, index, stack, mem, display, records, draws, timers⟩ :=
    onlyRegs_finish [] { s with delay := d, sound := e } (o := .next) nofun
  exact ⟨_, h, timers, by simp, regs, index, stack, mem, display, records, draws⟩

/-! ## The input latch -/

theorem keyLevel_of_le {k : Nat} (h : k ≤ 0xF) (s : State) : ∃ pressed, keyLevel k s = some pressed := by
  rcases keyLevel_cases k s with ⟨hge, -⟩ | ⟨pressed, -, level⟩
  · omega
  · exact ⟨pressed, level⟩

theorem keyLevel_of_gt {k : Nat} (h : 0xF < k) (s : State) : keyLevel k s = none := by
  rcases keyLevel_cases k s with ⟨-, absent⟩ | ⟨_, hlt, -⟩
  · exact absent
  · omega

theorem lt_of_keyLevel_eq_some {k : Nat} {s : State} {pressed : Bool} (h : keyLevel k s = some pressed) : k < 16 := by
  rcases keyLevel_cases k s with ⟨-, absent⟩ | ⟨_, hlt, -⟩
  · simp [absent] at h
  · exact hlt

/-- The scan finds the pressed key below which none is pressed. -/
theorem firstKey_eq_some {s : State} {k : Nat} (down : keyLevel k s = some true) (below : ∀ j, j < k → keyLevel j s = some false) :
    firstKey s = some k := by
  rcases firstKey_cases s with ⟨-, up⟩ | ⟨k', found, -, down', below'⟩
  · simp [up k (lt_of_keyLevel_eq_some down)] at down
  · rcases Nat.lt_trichotomy k k' with hlt | rfl | hgt
    · simp [below' k hlt] at down
    · exact found
    · simp [below k' hgt] at down'

theorem firstKey_eq_none {s : State} (up : ∀ k, k < 16 → keyLevel k s = some false) : firstKey s = none := by
  rcases firstKey_cases s with ⟨absent, -⟩ | ⟨k, -, hk, down, -⟩
  · exact absent
  · simp [up k hk] at down

/-! ## The key skips -/

section
variable {x : Nibble} {s : State}

/-- Where the latch has the key, `skip-key-pressed` is a skip alone, on its level. -/
theorem exec_skipKeyPressed_of_some {pressed : Bool} (h : keyLevel (getV x s).toNat s = some pressed) :
    exec (.skipKeyPressed x) s = done (.skip pressed) s := by
  change execSkipKeyPressed x s = _
  rw [execSkipKeyPressed, h]

/-- Where the latch has the key, `skip-key-not-pressed` is a skip alone, on the opposite of its level. -/
theorem exec_skipKeyNotPressed_of_some {pressed : Bool} (h : keyLevel (getV x s).toNat s = some pressed) :
    exec (.skipKeyNotPressed x) s = done (.skip !pressed) s := by
  change execSkipKeyNotPressed x s = _
  rw [execSkipKeyNotPressed, h]

theorem exec_skipKeyPressed_of_none (h : keyLevel (getV x s).toNat s = none) :
    exec (.skipKeyPressed x) s = .next (halted .keyRange (wideByte (getV x s)) (some (encode (.skipKeyPressed x))) s) := by
  change execSkipKeyPressed x s = _
  rw [execSkipKeyPressed, h, raise_eq]

theorem exec_skipKeyNotPressed_of_none (h : keyLevel (getV x s).toNat s = none) :
    exec (.skipKeyNotPressed x) s = .next (halted .keyRange (wideByte (getV x s)) (some (encode (.skipKeyNotPressed x))) s) := by
  change execSkipKeyNotPressed x s = _
  rw [execSkipKeyNotPressed, h, raise_eq]

/-! ## `wait-key` -/

theorem exec_waitKey_of_some {k : Nat} (h : firstKey s = some k) :
    exec (.waitKey x) s = done .next (setV x (BitVec.ofNat 8 k) s) := by
  change execWaitKey x s = _
  rw [execWaitKey, h]

/-- With no key down the step is a stall, whose end clears the tone alone. -/
theorem exec_waitKey_of_none (h : firstKey s = none) : exec (.waitKey x) s = .next (noTone s) := by
  change execWaitKey x s = _
  rw [execWaitKey, h]; rfl

end

/-! ## The statements -/

/-- Settles O48: the form writes one register alone, before the step's end counts. -/
theorem loadDelayReadsBeforeTheCount : Obligations.LoadDelayReadsBeforeTheCount := fun x _ =>
  ⟨decode_encode (.loadDelay x), exec_setV rfl⟩

/-- Settles O49: each form writes one timer alone, and the step's end counts from what it wrote. -/
theorem settingATimerCountsItOnce : Obligations.SettingATimerCountsItOnce := fun x _ =>
  ⟨⟨decode_encode (.setDelay x), exec_setTimers rfl⟩, decode_encode (.setSound x), exec_setTimers rfl⟩

/-- Settles O50: up to 0xF the latch has a level, on which both forms are skips alone, and above it both raise the fault. -/
theorem keySkipsTestTheLevel : Obligations.KeySkipsTestTheLevel := by
  intro x s
  refine ⟨decode_encode (.skipKeyPressed x), decode_encode (.skipKeyNotPressed x), fun hle => ?_, fun hgt => ?_⟩
  · obtain ⟨pressed, level⟩ := keyLevel_of_le hle s
    refine ⟨pressed, level, exec_skip (exec_skipKeyPressed_of_some level), ?_⟩
    obtain ⟨t, ht, pc, kept⟩ := exec_skip (exec_skipKeyNotPressed_of_some level)
    exact ⟨t, ht, by rw [pc]; cases pressed <;> rfl, kept⟩
  · have absent := keyLevel_of_gt hgt s
    exact ⟨exec_skipKeyPressed_of_none absent, exec_skipKeyNotPressed_of_none absent⟩

/-- Settles O51: the scan finds the lowest pressed key, whose number a byte holds, and with none pressed the step is a stall. -/
theorem waitKeyTakesTheLowestKeyOrStalls : Obligations.WaitKeyTakesTheLowestKeyOrStalls := by
  intro x s
  refine ⟨decode_encode (.waitKey x), fun k down below => ?_, fun up => exec_waitKey_of_none (firstKey_eq_none up)⟩
  obtain ⟨t, ht, value, rest⟩ := exec_setV (exec_waitKey_of_some (x := x) (firstKey_eq_some down below))
  have hk : k < 16 := lt_of_keyLevel_eq_some down
  exact ⟨t, ht, by rw [value, BitVec.toNat_ofNat]; omega, rest⟩

end Sys2Proof.Machine
end

section
/-! PROOFS. A step that changes the halt record is a fault's (`eq_raiseFault_of_step_halt_ne`), a load and a key's level as equations for
what the host gives, and the statements about faults and the host (spec/60_exceptions.md). -/

namespace Sys2Proof.Machine

/-! ## The steps that change the halt record -/

/-- A form that completes leaves the halt record, so one that changes it has raised a fault. -/
theorem eq_raiseFault_of_exec_halt_ne {i : Instr} {s t : State} (h : exec i s = .next t) (hne : t.halt ≠ s.halt) :
    ∃ k n w, t = raiseFault k n w s := by
  cases h ▸ exec_end i s with
  | completes o u body => exact absurd (by rw [finish_halt, body.halt]) hne
  | raises k n hk info => exact ⟨k, n, _, rfl⟩

/-- A halted core's step and an unrecognized word's leave the halt record; a fetch above the bound and a form that faults write it. -/
theorem eq_raiseFault_of_step_halt_ne {s t : State} (h : step s = .next t) (hne : t.halt ≠ s.halt) :
    ∃ k n w, t = raiseFault k n w s := by
  rcases step_cases s with ⟨-, he⟩ | ⟨-, ⟨-, he⟩ | ⟨-, w, -, ⟨i, -, he⟩ | ⟨-, he⟩⟩⟩ <;> rw [he] at h
  · cases h; exact absurd (noTone_halt s) hne
  · cases h; exact ⟨_, _, _, rfl⟩
  · exact eq_raiseFault_of_exec_halt_ne h hne
  · cases h; exact absurd (by rw [timerUpdate_halt, recordInvalid_halt]) hne

/-! ## A program load and a key's level -/

theorem hostOp_load_of_le {bytes : List Byte} (h : bytes.length ≤ maxProgram) (s : State) :
    hostOp (.load bytes) s = .next (.ok, { s with mem := cellWrites s.mem loadBase bytes }) := if_pos h

theorem hostOp_load_of_gt {bytes : List Byte} (h : maxProgram < bytes.length) (s : State) :
    hostOp (.load bytes) s = .next (.sizeError, s) := if_neg (Nat.not_le.2 h)

theorem hostOp_setKey_of_lt {k : Nat} (h : k < 16) (pressed : Bool) (s : State) :
    hostOp (.setKey k pressed) s = .next (.nothing, { s with keys := s.keys.setIfInBounds k pressed }) := if_pos h

theorem hostOp_setKey_of_ge {k : Nat} (h : 16 ≤ k) (pressed : Bool) (s : State) :
    hostOp (.setKey k pressed) s = .refused .keyIndexAbsent := if_neg (Nat.not_lt.2 h)

/-! ## The statements -/

/-- Settles O17: the step is a fault's, and a fault writes the record, which names the pc, and the tone. -/
theorem haltingFaultsArePrecise : Obligations.HaltingFaultsArePrecise := by
  intro s t h hne
  obtain ⟨k, n, w, rfl⟩ := eq_raiseFault_of_step_halt_ne h hne
  exact ⟨⟨k, s.pc, w, n⟩, rfl, rfl⟩

/-- Settles O52: an accepted program is one block written at 0x200, and a longer one answers an error alone. -/
theorem loadPlacesTheProgramOrRejects : Obligations.LoadPlacesTheProgramOrRejects := by
  intro bytes s
  refine ⟨fun hle => ⟨_, hostOp_load_of_le hle s, fun i hi => ?_, fun _ ha => cellRead_cellWrites_outside ha s.mem⟩,
    fun hgt => hostOp_load_of_gt hgt s⟩
  have byte : bytes[i]? = some bytes[i] := List.getElem?_eq_getElem hi
  exact byte.trans (congrArg some (cellRead_cellWrites_of_getElem? byte s.mem loadBase).symm)

/-- Settles O53: the latch has a level to write at each index below 16, and at no other. -/
theorem setKeyWritesOneLevel : Obligations.SetKeyWritesOneLevel := by
  intro k pressed s
  refine ⟨fun hk => ⟨_, hostOp_setKey_of_lt hk pressed s, ?_, fun j hj => ?_⟩, fun hk => hostOp_setKey_of_ge hk pressed s⟩
  · exact Vector.getElem?_setIfInBounds_self_of_lt hk
  · exact Vector.getElem?_setIfInBounds_ne hj.symm

/-- Settles O54: each of the three is answered from the state as it stands, and only the framebuffer query writes, the redraw flag. -/
theorem queriesReportAndClearRedrawOnce : Obligations.QueriesReportAndClearRedrawOnce := fun _ =>
  ⟨rfl, rfl, _, rfl, rfl, rfl⟩

end Sys2Proof.Machine
end

section
/-! PROOFS. The word the core meets at 0x200 at reset (`fetch_reset`), and the statement about its first step with nothing loaded
(spec/70_reset_and_hazards.md). -/

namespace Sys2Proof.Machine

/-- The glyph table ends below 0x200, so the word at the reset pc is zero (R39). -/
theorem fetch_reset : fetch State.reset = some 0x0000 := by
  have zero (a : Nat) (h : 0x200 ≤ a) : memByte State.reset a = 0 := memByte_reset_beyond_glyphs (by omega)
  have pc : State.reset.pc.toNat = 0x200 := rfl
  rw [fetch_of_pc_le (by omega), zero _ (by omega), zero _ (by omega)]; rfl

/-- The zero word is in group 0, and its key is neither `clear-screen`'s nor `return`'s (R81). -/
theorem decode_zero : decode 0x0000 = none := (decodeGroup0_eq_none_iff 0x000).2 (by decide)

/-- Settles O2: the zero word at 0x200 decodes to nothing, so the step records it where no record stands, and stalls. -/
theorem firstStepWithoutProgramStalls : Obligations.FirstStepWithoutProgramStalls := by
  refine ⟨_, step_of_decode_eq_none rfl fetch_reset decode_zero, ?_, ?_, ?_⟩
  · rw [timerUpdate_pc, recordInvalid_pc]; rfl
  · rw [timerUpdate_invalid, recordInvalid_invalid]; rfl
  · rw [timerUpdate_halt, recordInvalid_halt]; rfl

end Sys2Proof.Machine
end

section
/-! PROOFS. `call` and `return` where the entry they use does not exist (log 4), `add-index` where its two readings are one step (log 6), and
the statements about what the model chooses there. -/

namespace Sys2Proof.Machine

/-! ## The stack beyond its sixteen entries -/

/-- `call` is not at its fault of a full stack, which is at `sp = 16` alone, and the push finds no entry. -/
theorem exec_call_of_sp_gt {s : State} (h : 16 < s.sp.toNat) (nnn : Addr) : exec (.call nnn) s = .fault .stackEntryAbsent := by
  have not_full : s.sp ≠ 16#8 := by bv_omega
  have no_entry : pushPc s = none := if_neg (by omega)
  change execCall nnn s = _
  rw [execCall, if_neg not_full, no_entry]

/-- `return` is not at its fault of an empty stack, and the entry below `sp` is 16 or above. -/
theorem exec_ret_of_sp_gt {s : State} (h : 16 < s.sp.toNat) : exec .ret s = .fault .stackEntryAbsent := by
  have not_empty : s.sp ≠ 0#8 := by bv_omega
  have no_entry : popEntry s = none := by rw [popEntry, Vector.getElem?_eq_none (by bv_omega)]; rfl
  change execRet s = _
  rw [execRet, if_neg not_empty, no_entry]

/-- Settles O28: neither form is at its halting fault above 16, and neither finds an entry. -/
theorem noStackEntryBeyondSixteen : Obligations.NoStackEntryBeyondSixteen := fun nnn _ hsp =>
  ⟨exec_call_of_sp_gt hsp nnn, exec_ret_of_sp_gt hsp⟩

/-! ## The two readings of `add-index` -/

/-- The readings differ in the flag's sum alone, so they are one step where that sum has 16 bits. -/
theorem addIndex_eq_of_le {x : Nibble} {s : State} (h : s.index.toNat + (getV x s).toNat ≤ 0xFFFF) (r r' : IndexFlagSum) :
    addIndex r x s = addIndex r' x s := by
  rw [addIndex, indexSum_eq_of_le h r r', addIndex]

/-- Settles O55: `addIndex_end` with the flag of the exact sum, and `exec` is the other reading of the same step. -/
theorem addIndexWithTheUnwrappedFlag : Obligations.AddIndexWithTheUnwrappedFlag := by
  rintro x s sum rfl
  obtain ⟨t, ht, flag, added, added_flag, rest⟩ := addIndex_end .unwrapped x s
  rw [indexSum_unwrapped, indexOverflow_eq] at flag added_flag
  refine ⟨⟨t, ht, flag, fun hx => ?_, fun hx => ?_, rest⟩, fun hsum => addIndex_eq_of_le hsum .unwrapped .sixteenBit⟩
  · rw [added hx, BitVec.toNat_add, wideByte_toNat]
  · rw [added_flag hx, BitVec.toNat_add, wideByte_toNat]
    split <;> rfl

end Sys2Proof.Machine
end
